-- ==== Sys2Proof/Word.lean ====
section
/-! DEFINITION. The words of SEQCORE at the widths the spec decides (00_scope.md R9, R11, decisions D5 and D19):
W_DIV = 16, W_MUL = 8, W_TEMPO = 16, W_FREQ = 24, samples and the auxiliary byte 8, the event word 32. -/

namespace Sys2Proof

/-- A Wavetable entry, a sample, the auxiliary byte (30_encoding.md R75). -/
abbrev Byte := BitVec 8

/-- A divisor or a counter, W_DIV bits (10_state.md R21). -/
abbrev Divisor := BitVec 16

/-- A multiplier, W_MUL bits (10_state.md R21). -/
abbrev Multiplier := BitVec 8

/-- A tempo period or the tempo counter, W_TEMPO bits (10_state.md R24, R25). -/
abbrev Tempo := BitVec 16

/-- The operand of FCONV, unsigned with 8 fraction bits (30_encoding.md R74). -/
abbrev FreqWord := BitVec 24

/-- The direction register and the operand of SETDIR: a 2-bit two's complement integer (30_encoding.md R72). -/
abbrev Direction := BitVec 2

/-- The channel operand of PWRITE, one bit: 0 is channel A, 1 is channel B (00_scope.md R17, 10_state.md R36). -/
abbrev ChannelBit := BitVec 1

/-- One operation request on 32 bits, format EW (30_encoding.md R81, R85). -/
abbrev EventWord := BitVec 32

end Sys2Proof
end

