-- ==== Sys2Proof/Config.lean ====
section
/-! DEFINITION. The parameters of the block (00_scope.md R9), fixed when it is instantiated and never changed while it
runs (R10). They are plain data, and a state carries them (notes/assumptions/1.md), so that a statement about every
state holds for every value of every OPEN parameter. -/

namespace Sys2Proof

/-- One channel's PatternStep: the pair (divisor, multiplier) (30_encoding.md R70). Divisor 0 means silent (R71). -/
structure PatternStep where
  divisor    : Divisor
  multiplier : Multiplier
  deriving DecidableEq, Repr

/-- BIT_ORDER: the order of the eight bits of each frame byte on its line (30_encoding.md R77); it has no default. -/
inductive BitOrder where
  | msbFirst
  | lsbFirst
  deriving DecidableEq, Repr

/-- AUX_SOURCE: what the auxiliary byte of a frame carries (30_encoding.md R80). -/
inductive AuxSource where
  | patternIndex
  | auxReg
  deriving DecidableEq, Repr

/-- TICK_ORDER: the order of an FTICK and a STICK requested in one cycle (60_exceptions.md R194). -/
inductive TickOrder where
  | fastFirst
  | slowFirst
  deriving DecidableEq, Repr

/-- A byte source of a data line: SAMPLE(c), AUX or CONST(v) (30_encoding.md R76). -/
inductive ByteSource where
  | sample (c : Nat)
  | aux
  | const (v : Byte)
  deriving DecidableEq, Repr

/-- The parameters of 00_scope.md R9. TABLE_LEN is the length of `wavetable` and PATTERN_LEN the length of
`patternInit`, so that neither can disagree with the contents. -/
structure Config where
  /-- NCH, the number of channels: 1 or 2. -/
  nch         : Nat
  /-- WAVETABLE, one unsigned byte per entry. -/
  wavetable   : List Byte
  /-- ZERO_LEVEL, the output of a silent channel. -/
  zeroLevel   : Byte
  /-- PATTERN_INIT: the Pattern after reset, each entry the list of its NCH channels' pairs. -/
  patternInit : List (List PatternStep)
  /-- TICK_RATE, fast ticks per second; used by FCONV only. -/
  tickRate    : Nat
  /-- BIT_ORDER. -/
  bitOrder    : BitOrder
  /-- LINES: one list of byte sources per data line. -/
  lines       : List (List ByteSource)
  /-- AUX_SOURCE. -/
  auxSource   : AuxSource
  /-- TICK_ORDER. -/
  tickOrder   : TickOrder
  deriving DecidableEq, Repr

/-- TABLE_LEN, written L in the rules. -/
def Config.tableLen (c : Config) : Nat := c.wavetable.length

/-- PATTERN_LEN, written N in the rules; 64 for the hardware (90_conflicts.md C8). -/
def Config.patternLen (c : Config) : Nat := c.patternInit.length

/-- NLINES, the number of data lines (10_state.md R31). -/
def Config.nlines (c : Config) : Nat := c.lines.length

/-- FREQ_FRAC, the fraction bits of a frequency word (00_scope.md R9). -/
def freqFrac : Nat := 8

/-- The canonical Rest, the pair (0, 0) (30_encoding.md R71). -/
def PatternStep.rest : PatternStep := ⟨0, 0⟩

/-- The reference value of LINES for NCH channels (30_encoding.md R76): one line, the samples in channel order, then AUX. -/
def referenceLines (nch : Nat) : List (List ByteSource) :=
  [(List.range nch).map ByteSource.sample ++ [ByteSource.aux]]

/-- The parameters State.reset carries. DESIGN CHOICE (notes/assumptions/2.md): the spec leaves them OPEN; these are the
values of its own examples (95_test_vectors.md section 0 and programs P2 to P4) at the hardware's 64 entries and
with both channels. No statement rests on them. -/
def Config.reference : Config where
  nch         := 2
  wavetable   := [0x80, 0xDA, 0xFF, 0xDA, 0x80, 0x26, 0x00, 0x26]
  zeroLevel   := 0x80
  patternInit := List.replicate 64 [PatternStep.rest, PatternStep.rest]
  tickRate    := 16000
  bitOrder    := .msbFirst
  lines       := referenceLines 2
  auxSource   := .patternIndex
  tickOrder   := .fastFirst

end Sys2Proof
end

