-- ==== Sys2Proof/Syntax.lean ====
section
/-! DEFINITION. The operations of SEQCORE that can be requested: one constructor per row of spec/opcode_table.json
(30_encoding.md R81, R82). SEND has no row and no request of its own (R81); it is part of FTICK. -/

namespace Sys2Proof

/-- One requested operation with its operands (30_encoding.md R82). -/
inductive Instr where
  /-- NOP, a cycle with no strobe high (44_pattern_write.md R183). -/
  | nop
  /-- FTICK, the fast tick (40_phase_accumulator.md R100). -/
  | ftick
  /-- STICK, the slow tick (42_pattern_sequencer.md R140). -/
  | stick
  /-- PWRITE ch, div, mul: replace one channel's PatternStep at the current index (44_pattern_write.md R180). -/
  | pwrite (ch : ChannelBit) (div : Divisor) (mul : Multiplier)
  /-- SETDIR dir (42_pattern_sequencer.md R144). -/
  | setdir (dir : Direction)
  /-- SETTEMPO period (42_pattern_sequencer.md R145). -/
  | settempo (period : Tempo)
  /-- SETAUX val (43_serial_transmitter.md R166). -/
  | setaux (val : Byte)
  /-- FCONV freq (41_freq_conversion.md R120). -/
  | fconv (freq : FreqWord)
  /-- RESET (70_reset_and_hazards.md R220). -/
  | reset
  deriving DecidableEq, Repr

/-- Who may request an operation (00_scope.md R12, 60_exceptions.md R197). -/
inductive Agent where
  | fastTick
  | slowTick
  | host
  | external
  deriving DecidableEq, Repr

/-- The one agent whose requests an operation can be (00_scope.md R12, 60_exceptions.md R197). -/
def Instr.agent : Instr → Agent
  | .nop => .host
  | .ftick => .fastTick
  | .stick => .slowTick
  | .pwrite _ _ _ => .host
  | .setdir _ => .host
  | .settempo _ => .host
  | .setaux _ => .host
  | .fconv _ => .host
  | .reset => .external

/-- The input ports of one clock cycle (10_state.md R36): request strobes, one cycle wide, with their operand buses. -/
structure PortCycle where
  rst      : Bool
  fastTick : Bool
  slowTick : Bool
  patWr    : Bool
  patCh    : ChannelBit
  patDiv   : Divisor
  patMul   : Multiplier
  dirWr    : Bool
  dirVal   : Direction
  tempoWr  : Bool
  tempoVal : Tempo
  auxWr    : Bool
  auxVal   : Byte
  convReq  : Bool
  convFreq : FreqWord
  deriving DecidableEq, Repr

/-- A cycle with no strobe high, the NOP of 30_encoding.md R81 (its operand buses carry zeros, which nothing reads). -/
def PortCycle.idle : PortCycle :=
  ⟨false, false, false, false, 0, 0, 0, false, 0, false, 0, false, 0, false, 0⟩

/-- One item of the environment's request sequence: an event word (30_encoding.md R82), or one clock cycle at the
ports (10_state.md R36). -/
inductive Request where
  | event (w : EventWord)
  | cycle (p : PortCycle)
  deriving DecidableEq, Repr

end Sys2Proof
end

