-- ==== Sys2Proof/WellFormed.lean ====
section
/-! DEFINITION. What is well formed: an operation (30_encoding.md R72, R83), an operation on a block with given parameters
(R83), and the parameters themselves (00_scope.md R9, 30_encoding.md R76). -/

namespace Sys2Proof

/-- An operation some event word encodes: SETDIR's dir is one of 0b00, 0b01, 0b11 (30_encoding.md R72, R83). -/
def Instr.WellFormed : Instr → Bool
  | .nop => true
  | .ftick => true
  | .stick => true
  | .pwrite _ _ _ => true
  | .setdir dir => dir != 0b10#2
  | .settempo _ => true
  | .setaux _ => true
  | .fconv _ => true
  | .reset => true

/-- The channel an operation names exists on a block of `nch` channels; only PWRITE names one (44_pattern_write.md R180). -/
def Instr.ChannelExists (nch : Nat) : Instr → Bool
  | .nop => true
  | .ftick => true
  | .stick => true
  | .pwrite ch _ _ => decide (ch.toNat < nch)
  | .setdir _ => true
  | .settempo _ => true
  | .setaux _ => true
  | .fconv _ => true
  | .reset => true

/-- A legal request to a block with parameters `c` (30_encoding.md R83). -/
def Instr.LegalFor (c : Config) (i : Instr) : Bool := i.WellFormed && i.ChannelExists c.nch

/-- The byte source names no channel the block lacks (30_encoding.md R76). -/
def ByteSource.InRange (nch : Nat) : ByteSource → Bool
  | .sample c => decide (c < nch)
  | .aux => true
  | .const _ => true

/-- LINES is well formed (30_encoding.md R76): at least one line, the same number K >= 1 of byte sources on every line,
SAMPLE(c) for every channel and AUX exactly once, and no sample of an absent channel. -/
abbrev LinesWellFormed (nch : Nat) (lines : List (List ByteSource)) : Prop :=
  lines ≠ [] ∧
  (∀ l ∈ lines, l.length = (lines.headD []).length ∧ 1 ≤ l.length) ∧
  (∀ c < nch, lines.flatten.count (.sample c) = 1) ∧
  lines.flatten.count .aux = 1 ∧
  (∀ src ∈ lines.flatten, src.InRange nch = true)

/-- The parameters lie in the ranges of 00_scope.md R9. -/
abbrev Config.WellFormed (c : Config) : Prop :=
  (c.nch = 1 ∨ c.nch = 2) ∧
  1 ≤ c.tableLen ∧
  1 ≤ c.patternLen ∧
  (∀ entry ∈ c.patternInit, entry.length = c.nch) ∧
  1 ≤ c.tickRate ∧
  LinesWellFormed c.nch c.lines

end Sys2Proof
end

