-- ==== Sys2Proof/Decode.lean ====
section
/-! DEFINITION. Event words to operations and back (30_encoding.md R81 to R85). The decoder is total on 32-bit words and
refuses every reserved or illegal word by name (R83). The encoder is written from the same map (R82). -/

namespace Sys2Proof

/-- Why a word is no operation (30_encoding.md R83). -/
inductive DecodeError where
  /-- `op` is 0x8 to 0xE. -/
  | reservedOp
  /-- A reserved `arg` bit is not zero. -/
  | reservedBits
  /-- A SETDIR whose dir is 0b10. -/
  | reservedDirection
  deriving DecidableEq, Repr

/-- Bits [31:28], the operation code (30_encoding.md R81). -/
def opField (w : EventWord) : BitVec 4 := w.extractLsb' 28 4

/-- An operation with no operand: all of `arg`, bits [27:0], is reserved and must be zero (30_encoding.md R82). -/
def decodeNoOperand (w : EventWord) (i : Instr) : Except DecodeError Instr :=
  if w.extractLsb' 0 28 = 0 then .ok i else .error .reservedBits

/-- PWRITE: ch = [24], div = [23:8], mul = [7:0] (30_encoding.md R82). -/
def decodePwrite (w : EventWord) : Except DecodeError Instr :=
  if w.extractLsb' 25 3 = 0 then
    .ok (.pwrite (w.extractLsb' 24 1) (w.extractLsb' 8 16) (w.extractLsb' 0 8))
  else .error .reservedBits

/-- SETDIR: dir = [1:0]; 0b10 is refused (30_encoding.md R82, R83). -/
def decodeSetdir (w : EventWord) : Except DecodeError Instr :=
  if w.extractLsb' 2 26 = 0 then
    if w.extractLsb' 0 2 = 0b10#2 then .error .reservedDirection else .ok (.setdir (w.extractLsb' 0 2))
  else .error .reservedBits

/-- SETTEMPO: period = [15:0] (30_encoding.md R82). -/
def decodeSettempo (w : EventWord) : Except DecodeError Instr :=
  if w.extractLsb' 16 12 = 0 then .ok (.settempo (w.extractLsb' 0 16)) else .error .reservedBits

/-- SETAUX: val = [7:0] (30_encoding.md R82). -/
def decodeSetaux (w : EventWord) : Except DecodeError Instr :=
  if w.extractLsb' 8 20 = 0 then .ok (.setaux (w.extractLsb' 0 8)) else .error .reservedBits

/-- FCONV: freq = [23:0] (30_encoding.md R82). -/
def decodeFconv (w : EventWord) : Except DecodeError Instr :=
  if w.extractLsb' 24 4 = 0 then .ok (.fconv (w.extractLsb' 0 24)) else .error .reservedBits

/-- The map by operation code (30_encoding.md R82); 0x8 to 0xE are reserved (R83). -/
def decodeOp (op : Nat) (w : EventWord) : Except DecodeError Instr :=
  match op with
  | 0x0 => decodeNoOperand w .nop
  | 0x1 => decodeNoOperand w .ftick
  | 0x2 => decodeNoOperand w .stick
  | 0x3 => decodePwrite w
  | 0x4 => decodeSetdir w
  | 0x5 => decodeSettempo w
  | 0x6 => decodeSetaux w
  | 0x7 => decodeFconv w
  | 0xF => decodeNoOperand w .reset
  | _ => .error .reservedOp

/-- The operation an event word requests, or why it requests none (30_encoding.md R82, R83). -/
def decode (w : EventWord) : Except DecodeError Instr := decodeOp (opField w).toNat w

/-- The event word of an operation (30_encoding.md R82), each field in its place, the most significant first. -/
def encode : Instr → EventWord
  | .nop => 0x00000000#32
  | .ftick => 0x10000000#32
  | .stick => 0x20000000#32
  | .pwrite ch div mul => 0x3#4 ++ 0#3 ++ ch ++ div ++ mul
  | .setdir dir => 0x4#4 ++ 0#26 ++ dir
  | .settempo period => 0x5#4 ++ 0#12 ++ period
  | .setaux val => 0x6#4 ++ 0#20 ++ val
  | .fconv freq => 0x7#4 ++ 0#4 ++ freq
  | .reset => 0xF0000000#32

/-- A row of the operation map: a word belongs to it when `word AND mask = pattern` (30_encoding.md R82). -/
structure OpRow where
  mnemonic : String
  pattern  : EventWord
  mask     : EventWord
  deriving DecidableEq, Repr

/-- The nine rows of the operation map with their match and mask (30_encoding.md R82, spec/opcode_table.json). -/
def opRows : List OpRow :=
  [⟨"NOP", 0x00000000#32, 0xFFFFFFFF#32⟩, ⟨"FTICK", 0x10000000#32, 0xFFFFFFFF#32⟩,
   ⟨"STICK", 0x20000000#32, 0xFFFFFFFF#32⟩, ⟨"PWRITE", 0x30000000#32, 0xFE000000#32⟩,
   ⟨"SETDIR", 0x40000000#32, 0xFFFFFFFC#32⟩, ⟨"SETTEMPO", 0x50000000#32, 0xFFFF0000#32⟩,
   ⟨"SETAUX", 0x60000000#32, 0xFFFFFF00#32⟩, ⟨"FCONV", 0x70000000#32, 0xFF000000#32⟩,
   ⟨"RESET", 0xF0000000#32, 0xFFFFFFFF#32⟩]

/-- The word belongs to the row. -/
def OpRow.Matches (r : OpRow) (w : EventWord) : Bool := w &&& r.mask == r.pattern

/-- An operation's mnemonic in the operation map (30_encoding.md R82). -/
def Instr.mnemonic : Instr → String
  | .nop => "NOP"
  | .ftick => "FTICK"
  | .stick => "STICK"
  | .pwrite _ _ _ => "PWRITE"
  | .setdir _ => "SETDIR"
  | .settempo _ => "SETTEMPO"
  | .setaux _ => "SETAUX"
  | .fconv _ => "FCONV"
  | .reset => "RESET"

/-- The event word whose bits are `w`, of which the operation map gives `nbits`; every bit above them is 0. -/
def tableWord (nbits w : Nat) : EventWord := BitVec.ofNat 32 (w % 2 ^ nbits)

/-- The operation this decoder reads from the table word `w` (none where it refuses). -/
def decodeTableWord (nbits w : Nat) : Option Instr := (decode (tableWord nbits w)).toOption

end Sys2Proof
end

