-- ==== Sys2Proof/Machine/State.lean ====
section
/-! DEFINITION. The state of SEQCORE as one record of plain data (10_state.md R20, R33), the ways a step can end, and the
state after reset (R34). -/

namespace Sys2Proof.Machine

/-- The four registers of a channel (10_state.md R21). `phasePosition` is an index into the Wavetable. -/
structure Channel where
  divisor       : Divisor
  multiplier    : Multiplier
  counter       : Divisor
  phasePosition : Nat
  deriving DecidableEq, Repr

/-- An output line of the transmitter (10_state.md R31). -/
inductive Line where
  | data (j : Nat)
  | clk
  | latch
  deriving DecidableEq, Repr

/-- One `drive` event: a line is set to a level (00_scope.md R16). -/
structure WireEvent where
  line  : Line
  level : Bool
  deriving DecidableEq, Repr

/-- The output ports that carry a value only while an operation is performed (10_state.md R28, R36): `changed[c]`
during an FTICK, `conv_div` and `conv_mul` at an FCONV. Not registers: no operation reads them
(notes/assumptions/6.md). -/
structure Outputs where
  changed : List Bool
  conv    : Option PatternStep
  deriving DecidableEq, Repr

/-- A cell of the Pattern store that does not hold its PATTERN_INIT value: its number and its pair
(20_memory.md R50, notes/assumptions/8.md). -/
abbrev PatternCell := Nat × PatternStep

/-- The complete state (10_state.md R20), the parameters it runs under (00_scope.md R9), the transient output ports
(10_state.md R36) and the environment's requests still to be performed (notes/assumptions/4.md). -/
structure State where
  /-- The parameters; no step writes them (00_scope.md R10). -/
  cfg           : Config
  /-- ch[0..NCH-1]. -/
  ch            : List Channel
  /-- seq.patternIndex. -/
  patternIndex  : Nat
  /-- seq.tempoCounter. -/
  tempoCounter  : Tempo
  stepDirection : Direction
  tempoPeriod   : Tempo
  auxReg        : Byte
  /-- The Pattern store, in canonical form; an unlisted cell reads as PATTERN_INIT. -/
  pattern       : List PatternCell
  /-- ser_data[0..NLINES-1]. -/
  serData       : List Bool
  serClk        : Bool
  serLatch      : Bool
  /-- The wire trace, oldest drive first. -/
  trace         : List WireEvent
  out           : Outputs
  /-- The requests still to come, the next one first. -/
  inputs        : List Request
  deriving DecidableEq, Repr

/-- Nothing faults: "No operation can trap, fault, abort or report an error" (60_exceptions.md R190), so there is no
reason to name (notes/assumptions/12.md). -/
inductive Fault where
  deriving DecidableEq, Repr

/-- Why the model gives a request no step (30_encoding.md R83, 93_implementation_defined.md U1). All are safe: the model
stops, and says nothing of a run that holds such a request. -/
inductive Refusal where
  /-- An operation whose meaning is not written; raised by no arm of `exec`. Safe. -/
  | notModelled (mnemonic : String)
  /-- An event word that is no operation; raised by `step`. Safe (notes/assumptions/11.md). -/
  | illegalWord (w : EventWord) (e : DecodeError)
  /-- SETDIR with dir = 0b10; raised by `execSetdir`. Safe (notes/assumptions/11.md). -/
  | reservedDirection
  /-- PWRITE to a channel the block does not have; raised by `execPwrite`. Safe (notes/assumptions/11.md). -/
  | absentChannel
  deriving DecidableEq, Repr

/-- A channel after reset: silent (10_state.md R34). -/
def Channel.reset : Channel := ⟨0, 0, 0, 0⟩

/-- No changed flag raised, no conversion result (10_state.md R28, notes/assumptions/6.md). -/
def Outputs.quiet (nch : Nat) : Outputs := ⟨List.replicate nch false, none⟩

/-- The state right after reset of a block with parameters `c`: the table of 10_state.md R34. -/
def State.resetWith (c : Config) : State where
  cfg           := c
  ch            := List.replicate c.nch Channel.reset
  patternIndex  := 0
  tempoCounter  := 0
  stepDirection := 0b00
  tempoPeriod   := 0
  auxReg        := 0x00
  pattern       := []
  serData       := List.replicate c.nlines false
  serClk        := false
  serLatch      := false
  trace         := []
  out           := Outputs.quiet c.nch
  inputs        := []

/-- The machine right after reset, under the reference parameters (notes/assumptions/2.md). -/
def State.reset : State := State.resetWith Config.reference

end Sys2Proof.Machine
end

