-- ==== Sys2Proof/Machine/Ops.lean ====
section
/-! DEFINITION. The named operations over the two memories (PatRead, PatWrite, TabRead), the output lines (drive) and the
request sequence (00_scope.md R16, 20_memory.md R50 to R59). The block takes no exception and has no return from one
(60_exceptions.md R190, R195, R196), so no such operation stands here. -/

namespace Sys2Proof.Machine

/-- The number of the Pattern cell of entry `i`, channel `c`: an entry is the list of its NCH channel words
(30_encoding.md R70), and the entries follow one another (notes/assumptions/8.md). -/
def cellOf (nch i c : Nat) : Nat := nch * i + c

/-- What an unlisted cell reads as: its value after reset, PATTERN_INIT (10_state.md R34). -/
def initialStep (c : Config) (a : Nat) : PatternStep :=
  (c.patternInit.getD (a / c.nch) []).getD (a % c.nch) PatternStep.rest

/-- The listed pair of cell `a`, if there is one. -/
def Memory.lookup : List PatternCell → Nat → Option PatternStep
  | [], _ => none
  | (k, v) :: m, a => if a = k then some v else Memory.lookup m a

/-- The pair cell `a` holds, both fields from one instant (20_memory.md R56). -/
def Memory.read (c : Config) (m : List PatternCell) (a : Nat) : PatternStep :=
  (Memory.lookup m a).getD (initialStep c a)

/-- Cell `a` no longer listed. -/
def Memory.erase (m : List PatternCell) (a : Nat) : List PatternCell :=
  m.filter (fun p => p.1 != a)

/-- Cell `a` listed with pair `v`, at its place in the rising order. -/
def Memory.insert : List PatternCell → Nat → PatternStep → List PatternCell
  | [], a, v => [(a, v)]
  | (k, w) :: m, a, v =>
    if a < k then (a, v) :: (k, w) :: m
    else if a = k then (a, v) :: m
    else (k, w) :: Memory.insert m a v

/-- Both fields of cell `a` replaced at one instant (20_memory.md R56), keeping the canonical form. -/
def Memory.write (c : Config) (m : List PatternCell) (a : Nat) (v : PatternStep) : List PatternCell :=
  if v = initialStep c a then Memory.erase m a else Memory.insert m a v

/-- The canonical form of the Pattern store: cell numbers strictly rising, no cell listed with the value it reads as
unlisted, every listed cell one of the N x NCH cells (20_memory.md R50). -/
abbrev Memory.wf (c : Config) (m : List PatternCell) : Prop :=
  m.Pairwise (fun p q => p.1 < q.1) ∧
  ∀ p ∈ m, p.2 ≠ initialStep c p.1 ∧ p.1 < c.nch * c.patternLen

/-- The cell that index `i` and channel `c` address. The index is "always taken modulo" its bound (10_state.md R27), which
matters in no state of 10_state.md R22 (notes/assumptions/9.md). -/
def State.cellAt (s : State) (i c : Nat) : Nat := cellOf s.cfg.nch (i % s.cfg.patternLen) c

/-- PatRead(i, c) (00_scope.md R16, 20_memory.md R54). -/
def State.patRead (s : State) (i c : Nat) : PatternStep := Memory.read s.cfg s.pattern (s.cellAt i c)

/-- PatWrite(i, c, (d, m)) (00_scope.md R16, 20_memory.md R55). -/
def State.patWrite (s : State) (i c : Nat) (v : PatternStep) : State :=
  { s with pattern := Memory.write s.cfg s.pattern (s.cellAt i c) v }

/-- TabRead(i) (00_scope.md R16, 20_memory.md R52). The index is "always taken modulo" its bound (10_state.md R27), which
matters in no state of 10_state.md R22 (notes/assumptions/9.md). -/
def tabRead (c : Config) (i : Nat) : Byte := c.wavetable.getD (i % c.tableLen) c.zeroLevel

/-- The level of an output line (10_state.md R31). -/
def State.level (s : State) : Line → Bool
  | .data j => s.serData.getD j false
  | .clk => s.serClk
  | .latch => s.serLatch

/-- `drive(line, level)`: the line takes the level and the event is appended to the wire trace (00_scope.md R16), also
when the level does not change (43_serial_transmitter.md R163). -/
def State.drive (s : State) (e : WireEvent) : State :=
  match e.line with
  | .data j => { s with serData := s.serData.set j e.level, trace := s.trace ++ [e] }
  | .clk => { s with serClk := e.level, trace := s.trace ++ [e] }
  | .latch => { s with serLatch := e.level, trace := s.trace ++ [e] }

/-- The events driven one after the other. -/
def State.driveAll (s : State) (evs : List WireEvent) : State := evs.foldl State.drive s

/-- The next request of the environment; with none left, a cycle with no strobe high (30_encoding.md R81,
notes/assumptions/4.md). -/
def State.nextRequest (s : State) : Request := s.inputs.headD (.cycle .idle)

/-- The state in which the next request is performed: it is taken off the sequence, and the transient output ports are
quiet until an operation drives them (10_state.md R28). -/
def State.beginStep (s : State) : State :=
  { s with inputs := s.inputs.tail, out := Outputs.quiet s.cfg.nch }

/-- The state with an event word in front of the requests still to come. -/
def State.pushEvent (s : State) (w : EventWord) : State :=
  { s with inputs := .event w :: s.inputs }

end Sys2Proof.Machine
end

