-- ==== Sys2Proof/Machine/Operands.lean ====
section
/-! DEFINITION. How the operations read their operands: the direction as an integer, the channel number, and the rounding
and saturation of the conversion. -/

namespace Sys2Proof.Machine

/-- `sext(stepDirection)`: 0b00 is 0, 0b01 is +1, 0b11 is -1 (30_encoding.md R72, 42_pattern_sequencer.md R141). The
pattern 0b10 is never held (notes/assumptions/16.md). -/
def dirValue (d : Direction) : Int := d.toInt

/-- The channel number a PWRITE names: A is 0, B is 1 (00_scope.md R17). -/
def channelNumber (ch : ChannelBit) : Nat := ch.toNat

/-- The new index: (index + d) mod N, the mathematical residue (42_pattern_sequencer.md R142). -/
def advanceIndex (n index : Nat) (d : Direction) : Nat :=
  (((index : Int) + dirValue d) % (n : Int)).toNat

/-- round(a / b) to nearest, ties upward, on exact integers: floor((2a + b) / (2b)) (41_freq_conversion.md R125). -/
def roundQuot (a b : Nat) : Nat := (2 * a + b) / (2 * b)

/-- sat_W(v) = min(v, 2^W - 1) (41_freq_conversion.md R126). -/
def saturate (w v : Nat) : Nat := min v (2 ^ w - 1)

end Sys2Proof.Machine
end

