-- ==== Sys2Proof/Machine/FreqConversion.lean ====
section
/-! DEFINITION. The frequency conversion (41_freq_conversion.md). -/

namespace Sys2Proof.Machine

/-- Nn = freq_raw x L (41_freq_conversion.md R125). -/
def convNum (c : Config) (f : FreqWord) : Nat := f.toNat * c.tableLen

/-- Dn = R x 2^FREQ_FRAC (41_freq_conversion.md R125). -/
def convDen (c : Config) : Nat := c.tickRate * 2 ^ freqFrac

/-- FCONV's result: (0, 0) for a Rest before any division (41_freq_conversion.md R121); else divisor = sat(round(1/sigma)),
multiplier = sat(max(1, round(sigma))) with sigma = Nn / Dn (R122 to R126). -/
def freqConv (c : Config) (f : FreqWord) : PatternStep :=
  if f = 0#24 then PatternStep.rest
  else
    { divisor    := BitVec.ofNat 16 (saturate 16 (roundQuot (convDen c) (convNum c f)))
      multiplier := BitVec.ofNat 8 (saturate 8 (max 1 (roundQuot (convNum c f) (convDen c)))) }

/-- FCONV: the pair on the ports conv_div and conv_mul; no state is read or written (41_freq_conversion.md R120, R129). -/
def execFconv (freq : FreqWord) (s : State) : Host.Outcome State Fault Refusal :=
  .next { s with out := { s.out with conv := some (freqConv s.cfg freq) } }

end Sys2Proof.Machine
end

