-- ==== Sys2Proof/Machine/Flags.lean ====
section
/-! DEFINITION. The changed flags, the block's only flags (10_state.md R28). -/

namespace Sys2Proof.Machine

/-- The changed flag CHSTEP returns for a channel: 1 exactly when this fast tick advances its phase, that is for a
running channel whose counter is 0, the underflow (40_phase_accumulator.md R101, R102). -/
def Channel.underflows (x : Channel) : Bool := x.divisor != 0#16 && x.counter == 0#16

/-- The changed flag of every channel in one FTICK, from the registers before it (40_phase_accumulator.md R100). -/
def changedFlags (ch : List Channel) : List Bool := ch.map Channel.underflows

/-- A frame is due: at least one changed flag is 1 (40_phase_accumulator.md R104). -/
def anyChanged (ch : List Channel) : Bool := (changedFlags ch).any id

end Sys2Proof.Machine
end

