-- ==== Sys2Proof/Machine/PatternSequencer.lean ====
section
/-! DEFINITION. The pattern sequencer: the slow tick, SETDIR and SETTEMPO (42_pattern_sequencer.md). -/

namespace Sys2Proof.Machine

/-- The counter after a load: min(counter, new divisor) (42_pattern_sequencer.md R147). -/
def clampCounter (counter divisor : Divisor) : Divisor := if counter ≤ divisor then counter else divisor

/-- The load of one channel: divisor and multiplier from the pair, the counter clamped, the phase untouched
(42_pattern_sequencer.md R141, R147). -/
def Channel.load (x : Channel) (p : PatternStep) : Channel :=
  { x with divisor := p.divisor, multiplier := p.multiplier, counter := clampCounter x.counter p.divisor }

/-- EXPIRY: reload the tempo counter, load every channel from the entry at the index, then advance the index
(42_pattern_sequencer.md R141). DEDUCED (notes/assumptions/24.md): a PWRITE just after it lands on the advanced index, so
that the very next expiry loads it, running or halted; 44_pattern_write.md R184 (b) says N expiries when running. -/
def State.expiry (s : State) : State :=
  { s with
    tempoCounter := s.tempoPeriod
    ch           := s.ch.mapIdx (fun c x => x.load (s.patRead s.patternIndex c))
    patternIndex := advanceIndex s.cfg.patternLen s.patternIndex s.stepDirection }

/-- STICK: count down, or expire at 0 (42_pattern_sequencer.md R140). -/
def execStick (s : State) : Host.Outcome State Fault Refusal :=
  if s.tempoCounter ≠ 0#16 then .next { s with tempoCounter := s.tempoCounter - 1#16 } else .next s.expiry

/-- SETDIR: stepDirection <- dir; dir = 0b10 is refused (42_pattern_sequencer.md R144, 30_encoding.md R83). -/
def execSetdir (dir : Direction) (s : State) : Host.Outcome State Fault Refusal :=
  if dir = 0b10#2 then .refused .reservedDirection else .next { s with stepDirection := dir }

/-- SETTEMPO: tempoPeriod <- period; the count in progress is not touched (42_pattern_sequencer.md R145). -/
def execSettempo (period : Tempo) (s : State) : Host.Outcome State Fault Refusal :=
  .next { s with tempoPeriod := period }

end Sys2Proof.Machine
end

