-- ==== Sys2Proof/Machine/PatternWrite.lean ====
section
/-! DEFINITION. The pattern write point and NOP (44_pattern_write.md). -/

namespace Sys2Proof.Machine

/-- PWRITE: both fields of the pair at the current index are replaced (44_pattern_write.md R180); a channel the block
does not have is refused (30_encoding.md R83). DEDUCED (notes/assumptions/24.md): the index is the one the next expiry
loads, just after an expiry too, where R184 (b) says otherwise. -/
def execPwrite (ch : ChannelBit) (div : Divisor) (mul : Multiplier) (s : State) : Host.Outcome State Fault Refusal :=
  if channelNumber ch < s.cfg.nch then .next (s.patWrite s.patternIndex (channelNumber ch) ⟨div, mul⟩)
  else .refused .absentChannel

/-- NOP: nothing changes (44_pattern_write.md R183). -/
def execNop (s : State) : Host.Outcome State Fault Refusal := .next s

end Sys2Proof.Machine
end

