-- ==== Sys2Proof/Machine/SerialTransmitter.lean ====
section
/-! DEFINITION. The serial transmitter: SAMPLE (40_phase_accumulator.md R103), the frame and its wire sequence
(43_serial_transmitter.md R160 to R163, 30_encoding.md R76 to R80), and SETAUX (R166). -/

namespace Sys2Proof.Machine

/-- The output byte of a channel: ZERO_LEVEL when silent, else its Wavetable entry (40_phase_accumulator.md R103). -/
def channelSample (c : Config) (x : Channel) : Byte :=
  if x.divisor = 0#16 then c.zeroLevel else tabRead c x.phasePosition

/-- SAMPLE(c), also the port `sample[c]` (40_phase_accumulator.md R103, 10_state.md R36). A channel the block lacks is
asked for by no well-formed LINES (notes/assumptions/10.md). -/
def State.sample (s : State) (c : Nat) : Byte :=
  match s.ch[c]? with
  | some x => channelSample s.cfg x
  | none => s.cfg.zeroLevel

/-- The read-only port `sample[c]` (10_state.md R36). -/
def State.samplePort (s : State) (c : Nat) : Byte := s.sample c

/-- The read-only port `pattern_index` (10_state.md R36). -/
def State.patternIndexPort (s : State) : Nat := s.patternIndex

/-- The auxiliary byte: trunc_8 of the index, or auxReg (30_encoding.md R80, 43_serial_transmitter.md R161). -/
def State.auxByte (s : State) : Byte :=
  match s.cfg.auxSource with
  | .patternIndex => BitVec.ofNat 8 s.patternIndex
  | .auxReg => s.auxReg

/-- The byte a source of LINES stands for, from the state's one snapshot (43_serial_transmitter.md R161). -/
def State.sourceByte (s : State) : ByteSource → Byte
  | .sample c => s.sample c
  | .aux => s.auxByte
  | .const v => v

/-- The frame bits before serialisation: the bytes of each line in order (43_serial_transmitter.md R161, R170). -/
def State.frameBytes (s : State) : List (List Byte) := s.cfg.lines.map (fun l => l.map s.sourceByte)

/-- The bits of a byte in the order they go onto the line (30_encoding.md R77). -/
def byteBits (o : BitOrder) (v : Byte) : List Bool :=
  match o with
  | .msbFirst => (List.range 8).map (fun i => v.getLsbD (7 - i))
  | .lsbFirst => (List.range 8).map (fun i => v.getLsbD i)

/-- stream[j] (43_serial_transmitter.md R162). -/
def lineStream (o : BitOrder) (bytes : List Byte) : List Bool := bytes.flatMap (byteBits o)

/-- Bit time k: every data line is set, then the clock is pulsed high then low (43_serial_transmitter.md R163). A line
too short for bit k is in no well-formed LINES (notes/assumptions/10.md). -/
def bitGroup (streams : List (List Bool)) (k : Nat) : List WireEvent :=
  streams.mapIdx (fun j st => ⟨.data j, st.getD k false⟩) ++ [⟨.clk, true⟩, ⟨.clk, false⟩]

/-- The latch pulse that ends a frame (43_serial_transmitter.md R163). -/
def latchPulse : List WireEvent := [⟨.latch, true⟩, ⟨.latch, false⟩]

/-- The drive events of one frame, as a pure function of the frame's bytes and the bit order (43_serial_transmitter.md
R163, R170): 8K bit times, then one latch pulse. -/
def transmit (bytes : List (List Byte)) (o : BitOrder) : List WireEvent :=
  let streams := bytes.map (lineStream o)
  (List.range (8 * (bytes.headD []).length)).flatMap (bitGroup streams) ++ latchPulse

/-- The drive events SEND makes in this state (43_serial_transmitter.md R160, R170). -/
def State.frameEvents (s : State) : List WireEvent := transmit s.frameBytes s.cfg.bitOrder

/-- SEND: one frame driven onto the lines (43_serial_transmitter.md R160). -/
def State.send (s : State) : State := s.driveAll s.frameEvents

/-- SETAUX: auxReg <- val; no frame is sent (43_serial_transmitter.md R166). -/
def execSetaux (val : Byte) (s : State) : Host.Outcome State Fault Refusal :=
  .next { s with auxReg := val }

end Sys2Proof.Machine
end

