-- ==== Sys2Proof/Machine/PhaseAccumulator.lean ====
section
/-! DEFINITION. The phase accumulator and the fast tick (40_phase_accumulator.md). -/

namespace Sys2Proof.Machine

/-- CHSTEP on the registers of one channel, for a Wavetable of `l` entries (40_phase_accumulator.md R101): silent,
nothing; counter 0, advance and reload; else decrement. Its changed flag is `Channel.underflows`. -/
def Channel.chStep (l : Nat) (x : Channel) : Channel :=
  if x.divisor = 0#16 then x
  else if x.counter = 0#16 then
    { x with phasePosition := (x.phasePosition + x.multiplier.toNat) % l, counter := x.divisor }
  else { x with counter := x.counter - 1#16 }

/-- The channel steps of one FTICK with their changed flags (40_phase_accumulator.md R100). -/
def State.stepChannels (s : State) : State :=
  { s with
    ch  := s.ch.map (Channel.chStep s.cfg.tableLen)
    out := { s.out with changed := changedFlags s.ch } }

/-- FTICK: every channel steps; then one frame if a changed flag is 1, built from the state after the steps
(40_phase_accumulator.md R100, R104). -/
def execFtick (s : State) : Host.Outcome State Fault Refusal :=
  .next (if anyChanged s.ch then s.stepChannels.send else s.stepChannels)

end Sys2Proof.Machine
end

