-- ==== Sys2Proof/Machine/Reset.lean ====
section
/-! DEFINITION. RESET (70_reset_and_hazards.md R220). -/

namespace Sys2Proof.Machine

/-- RESET: every register, the Pattern and every output line take their reset values and the wire trace starts again
empty (70_reset_and_hazards.md R220, 10_state.md R34). The parameters and the environment's requests are no part of
what it resets (notes/assumptions/19.md). -/
def execReset (s : State) : Host.Outcome State Fault Refusal :=
  .next { State.resetWith s.cfg with inputs := s.inputs }

end Sys2Proof.Machine
end

