-- ==== Sys2Proof/Machine/Dispatch.lean ====
section
/-! DEFINITION. One arm per operation of the operation map (30_encoding.md R82). -/

namespace Sys2Proof.Machine

def exec (i : Instr) (s : State) : Host.Outcome State Fault Refusal :=
  match i with
  | .nop => Sys2Proof.Machine.execNop s
  | .ftick => Sys2Proof.Machine.execFtick s
  | .stick => Sys2Proof.Machine.execStick s
  | .pwrite ch div mul => Sys2Proof.Machine.execPwrite ch div mul s
  | .setdir dir => Sys2Proof.Machine.execSetdir dir s
  | .settempo period => Sys2Proof.Machine.execSettempo period s
  | .setaux val => Sys2Proof.Machine.execSetaux val s
  | .fconv freq => Sys2Proof.Machine.execFconv freq s
  | .reset => Sys2Proof.Machine.execReset s

end Sys2Proof.Machine
end

