-- ==== Sys2Proof/Machine/Cycle.lean ====
section
/-! DEFINITION. Several operations in order, and the requests of one clock cycle (20_memory.md R61, 10_state.md R37). -/

namespace Sys2Proof.Machine

/-- The operations one after the other, each atomically, up to the first that is refused (20_memory.md R61). -/
def execAll : List Instr → State → Host.Outcome State Fault Refusal
  | [], s => .next s
  | i :: is, s =>
    match exec i s with
    | .next t => execAll is t
    | .fault r => .fault r
    | .refused r => .refused r

/-- The host writes requested in a cycle: PWRITE, SETDIR, SETTEMPO, SETAUX in that order (10_state.md R37). -/
def hostRequests (p : PortCycle) : List Instr :=
  (if p.patWr then [.pwrite p.patCh p.patDiv p.patMul] else []) ++
  (if p.dirWr then [.setdir p.dirVal] else []) ++
  (if p.tempoWr then [.settempo p.tempoVal] else []) ++
  (if p.auxWr then [.setaux p.auxVal] else [])

/-- The ticks requested in a cycle, in the order TICK_ORDER gives (60_exceptions.md R194). -/
def tickRequests (o : TickOrder) (p : PortCycle) : List Instr :=
  match o with
  | .fastFirst => (if p.fastTick then [.ftick] else []) ++ (if p.slowTick then [.stick] else [])
  | .slowFirst => (if p.slowTick then [.stick] else []) ++ (if p.fastTick then [.ftick] else [])

/-- FCONV, which can be performed at any point of the cycle (10_state.md R37); the model takes it last
(notes/assumptions/5.md). -/
def convRequests (p : PortCycle) : List Instr := if p.convReq then [.fconv p.convFreq] else []

/-- A cycle that requests nothing is a NOP (30_encoding.md R81). -/
def orNop : List Instr → List Instr
  | [] => [.nop]
  | i :: is => i :: is

/-- The operations a cycle requests, in the order they are performed: RESET alone if `rst` is high, else host writes,
then ticks (10_state.md R37); with no strobe high the cycle is a NOP (30_encoding.md R81). -/
def cycleRequests (o : TickOrder) (p : PortCycle) : List Instr :=
  if p.rst then [.reset] else orNop (hostRequests p ++ tickRequests o p ++ convRequests p)

/-- One request performed: an event word's operation, or a cycle's operations in order (30_encoding.md R81, 10_state.md
R37). An event word that is no operation is refused (R83). -/
def performRequest (r : Request) (s : State) : Host.Outcome State Fault Refusal :=
  match r with
  | .event w =>
    match decode w with
    | .ok i => exec i s
    | .error e => .refused (.illegalWord w e)
  | .cycle p => execAll (cycleRequests s.cfg.tickOrder p) s

end Sys2Proof.Machine
end

