-- ==== Sys2Proof/Machine/Step.lean ====
section
/-! DEFINITION. One step: the next request of the environment is performed (20_memory.md R61, notes/assumptions/4.md). -/

namespace Sys2Proof.Machine

/-- One step of the machine. -/
def step (s : State) : Host.Outcome State Fault Refusal := performRequest s.nextRequest s.beginStep

/-- The state with the table word `w` placed where `step` takes its next request (notes/assumptions/4.md). -/
def State.withFetchWord (s : State) (nbits w : Nat) : State := s.pushEvent (tableWord nbits w)

end Sys2Proof.Machine
end

