-- ==== Sys2Proof/Machine/Listing.lean ====
section
/-! DEFINITION. The pseudo-operations with their expansions (30_encoding.md R87) and the listing form of an operation
(R86). -/

namespace Sys2Proof.Machine

/-- REST ch = PWRITE ch, 0, 0 (30_encoding.md R87). -/
def restOp (ch : ChannelBit) : Instr := .pwrite ch 0 0

/-- FWD = SETDIR +1 (30_encoding.md R87). -/
def fwdOp : Instr := .setdir 0b01

/-- REV = SETDIR -1 (30_encoding.md R87). -/
def revOp : Instr := .setdir 0b11

/-- HALT = SETDIR 0 (30_encoding.md R87). -/
def haltOp : Instr := .setdir 0b00

/-- NOTE ch, f = FCONV f, then PWRITE of its result (30_encoding.md R87). -/
def noteOps (c : Config) (ch : ChannelBit) (f : FreqWord) : List Instr :=
  [.fconv f, .pwrite ch (freqConv c f).divisor (freqConv c f).multiplier]

/-- A channel's letter (00_scope.md R17). -/
def channelText (ch : ChannelBit) : String := if ch = 0 then "A" else "B"

/-- A direction as SETDIR is written (30_encoding.md R86); 0b10 has no written form. -/
def directionText (d : Direction) : String :=
  if d = 0b01#2 then "+1" else if d = 0b00#2 then "0" else if d = 0b11#2 then "-1" else "reserved"

/-- The eight decimal digits of a fraction of 256, trailing zeros dropped: 1/256 is 0.00390625. -/
def fractionDigits (frac : Nat) : List Char :=
  let digits := (List.range 8).map (fun k => frac * 390625 / 10 ^ (7 - k) % 10)
  ((digits.reverse.dropWhile (· = 0)).reverse).map Nat.digitChar

/-- A frequency word as a decimal number of hertz (30_encoding.md R86). -/
def hertzText (f : FreqWord) : String :=
  let whole := toString (f.toNat / 256)
  if f.toNat % 256 = 0 then whole else whole ++ "." ++ String.ofList (fractionDigits (f.toNat % 256))

/-- One operation in the listing form (30_encoding.md R86). -/
def listing : Instr → String
  | .nop => "NOP"
  | .ftick => "FTICK"
  | .stick => "STICK"
  | .pwrite ch div mul => "PWRITE " ++ channelText ch ++ ", " ++ toString div.toNat ++ ", " ++ toString mul.toNat
  | .setdir dir => "SETDIR " ++ directionText dir
  | .settempo period => "SETTEMPO " ++ toString period.toNat
  | .setaux val => "SETAUX " ++ toString val.toNat
  | .fconv freq => "FCONV " ++ hertzText freq
  | .reset => "RESET"

end Sys2Proof.Machine
end

