-- ==== Sys2Proof/Machine/Receiver.lean ====
section
/-! DEFINITION. The receiver's view of a wire trace (43_serial_transmitter.md R167). The receiver is outside the block and
no operation reads this; it says what a claim about the transmitter observes. PRESUMED (notes/assumptions/17.md):
that it shifts on the rising clock edge and commits on the rising latch edge is the spec's general knowledge. -/

namespace Sys2Proof.Machine

/-- What the receiver of one data line has seen: the levels, the bits taken in since the last latch in order of arrival,
and the frames committed so far, oldest first. -/
structure Receiver where
  data   : Bool
  clk    : Bool
  latch  : Bool
  shift  : List Bool
  frames : List (List Bool)
  deriving DecidableEq, Repr

/-- Before any drive: all lines 0, nothing taken in (10_state.md R34). -/
def Receiver.idle : Receiver := ⟨false, false, false, [], []⟩

/-- The receiver of line `j` sees one drive event (43_serial_transmitter.md R167). -/
def Receiver.see (j : Nat) (r : Receiver) (e : WireEvent) : Receiver :=
  match e.line with
  | .data i => if i = j then { r with data := e.level } else r
  | .clk =>
    if e.level && !r.clk then { r with clk := true, shift := r.shift ++ [r.data] } else { r with clk := e.level }
  | .latch =>
    if e.level && !r.latch then { r with latch := true, shift := [], frames := r.frames ++ [r.shift] }
    else { r with latch := e.level }

/-- The receiver of line `j` after a wire trace. -/
def receive (j : Nat) (trace : List WireEvent) : Receiver := trace.foldl (Receiver.see j) Receiver.idle

/-- The frames line `j`'s receiver has committed, oldest first. -/
def committedFrames (j : Nat) (trace : List WireEvent) : List (List Bool) := (receive j trace).frames

end Sys2Proof.Machine
end

