-- ==== Sys2Proof/Safety.lean ====
section
/-! DEFINITION. What a good state is, and the terms the statements use. -/

namespace Sys2Proof.Machine

/-- The channel registers are in range: NCH of them, "phasePosition always in [0, tableLength); counter always in
[0, divisor]" (10_state.md R22). -/
abbrev State.ChannelsOk (s : State) : Prop :=
  s.ch.length = s.cfg.nch ∧ ∀ x ∈ s.ch, x.phasePosition < s.cfg.tableLen ∧ x.counter ≤ x.divisor

/-- The index is in [0, N) (10_state.md R24) and the direction is not the reserved 0b10 (10_state.md R25). -/
abbrev State.SequencerOk (s : State) : Prop :=
  s.patternIndex < s.cfg.patternLen ∧ s.stepDirection ≠ 0b10#2

/-- The level a line was last driven to, 0 if never (10_state.md R31, R34). -/
def lastDriven (trace : List WireEvent) (l : Line) : Bool :=
  ((trace.filter (fun e => e.line = l)).getLast?.map WireEvent.level).getD false

/-- The output lines: NLINES data lines, each line at the level last driven onto it; clock and latch are 0 between
operations (10_state.md R31). -/
abbrev State.LinesOk (s : State) : Prop :=
  s.serData.length = s.cfg.nlines ∧
  (∀ j < s.cfg.nlines, s.level (.data j) = lastDriven s.trace (.data j)) ∧
  s.serClk = lastDriven s.trace .clk ∧ s.serClk = false ∧
  s.serLatch = lastDriven s.trace .latch ∧ s.serLatch = false

/-- The wire trace is made of whole frames: after it no receiver holds a bit that is not committed
(43_serial_transmitter.md R164). PRESUMED (notes/assumptions/17.md): the receiver's edges (R167), through which it is
said. -/
abbrev State.FramesWhole (s : State) : Prop :=
  ∀ j < s.cfg.nlines, (receive j s.trace).shift = []

/-- What holds between any two operations of a run: parameters in range, channel registers, index and direction in range
(10_state.md R22, R24, R25), the output lines at rest (R31); and two parts that are not the spec's words, the Pattern
store canonical (notes/assumptions/8.md) and the trace whole frames (notes/assumptions/17.md). -/
abbrev State.Inv (s : State) : Prop :=
  s.cfg.WellFormed ∧ s.ChannelsOk ∧ s.SequencerOk ∧ Memory.wf s.cfg s.pattern ∧ s.LinesOk ∧ s.FramesWhole

/-- Two outcomes alike up to the transient output ports. -/
def sameUpToPorts : Host.Outcome State Fault Refusal → Host.Outcome State Fault Refusal → Prop
  | .next s, .next t => { s with out := t.out } = t
  | .next _, .fault _ => False
  | .next _, .refused _ => False
  | .fault _, .next _ => False
  | .fault a, .fault b => a = b
  | .fault _, .refused _ => False
  | .refused _, .next _ => False
  | .refused _, .fault _ => False
  | .refused a, .refused b => a = b

/-- The operation loads no channel and resets nothing: neither a STICK nor a RESET. -/
def keepsChannelSettings : Instr → Bool
  | .nop => true
  | .ftick => true
  | .stick => false
  | .pwrite _ _ _ => true
  | .setdir _ => true
  | .settempo _ => true
  | .setaux _ => true
  | .fconv _ => true
  | .reset => false

/-- The operation, performed in this state, overwrites the pair of channel `ch` at index `k`: a RESET, or a PWRITE of
`ch` while the index is `k` (20_memory.md R64). -/
def State.overwritesPair (s : State) (ch : ChannelBit) (k : Nat) : Instr → Bool
  | .nop => false
  | .ftick => false
  | .stick => false
  | .pwrite ch' _ _ => ch' == ch && s.patternIndex == k
  | .setdir _ => false
  | .settempo _ => false
  | .setaux _ => false
  | .fconv _ => false
  | .reset => true

/-- No operation of the run, in the state it is performed in, overwrites the pair of channel `ch` at index `k`. -/
def neverOverwritten (ch : ChannelBit) (k : Nat) : List Instr → State → Bool
  | [], _ => true
  | i :: is, s =>
    !s.overwritesPair ch k i &&
      match exec i s with
      | .next t => neverOverwritten ch k is t
      | .fault _ => true
      | .refused _ => true

end Sys2Proof.Machine
end

