-- ==== Sys2Proof/Certificates/Slice0/Obligations.lean ====
section
/-! DEFINITION. The statements for the provers: what the rules of the spec say the block does. -/

open Sys2Proof Sys2Proof.Machine

/-- NOP answers the same state. Formalises R183. -/
def Obligations.NopChangesNothing : Prop :=
  (∀ s : State, exec .nop s = .next s) ∧ decode 0x00000000#32 = .ok .nop ∧
  (∀ (o : TickOrder) (p : PortCycle), true ∉ [p.rst, p.fastTick, p.slowTick, p.patWr, p.dirWr, p.tempoWr, p.auxWr, p.convReq] →
    cycleRequests o p = [.nop])

/-- FTICK applies CHSTEP to every channel and returns its changed flag. Formalises R101. -/
def Obligations.FtickStepsEveryChannel : Prop :=
  ∀ s : State, ∃ t, exec .ftick s = .next t ∧ t.ch.length = s.ch.length ∧ t.out.changed.length = s.ch.length ∧
    ∀ (c : Nat) (x : Channel), s.ch[c]? = some x →
      (x.divisor = 0#16 → t.ch[c]? = some x ∧ t.out.changed[c]? = some false) ∧
      (x.divisor ≠ 0#16 → x.counter = 0#16 →
        t.ch[c]? = some ⟨x.divisor, x.multiplier, x.divisor,
          (x.phasePosition + x.multiplier.toNat) % s.cfg.tableLen⟩ ∧ t.out.changed[c]? = some true) ∧
      (x.divisor ≠ 0#16 → x.counter ≠ 0#16 →
        t.ch[c]? = some ⟨x.divisor, x.multiplier, x.counter - 1#16, x.phasePosition⟩ ∧
          t.out.changed[c]? = some false)

/-- FTICK sends exactly one frame if a channel underflows and none otherwise. Formalises R104. -/
def Obligations.FtickSendsOneFrameIffUnderflow : Prop :=
  ∀ s : State, ∃ t, exec .ftick s = .next t ∧ t.ch = s.ch.map (Channel.chStep s.cfg.tableLen) ∧
    ((∃ x ∈ s.ch, x.divisor ≠ 0#16 ∧ x.counter = 0#16) → t.trace = s.trace ++ t.frameEvents) ∧
    ((∀ x ∈ s.ch, x.divisor = 0#16 ∨ x.counter ≠ 0#16) →
      t.trace = s.trace ∧ t.serData = s.serData ∧ t.serClk = s.serClk ∧ t.serLatch = s.serLatch)

/-- FTICK leaves settings, sequencer, control registers and Pattern alone and does not read them. Formalises R110.
-/
def Obligations.FtickTouchesAndReadsNothingElse : Prop :=
  ∀ s t : State, exec .ftick s = .next t →
    (∀ (c : Nat) (x : Channel), s.ch[c]? = some x →
      ∃ y, t.ch[c]? = some y ∧ y.divisor = x.divisor ∧ y.multiplier = x.multiplier) ∧
    t.patternIndex = s.patternIndex ∧ t.tempoCounter = s.tempoCounter ∧ t.stepDirection = s.stepDirection ∧
    t.tempoPeriod = s.tempoPeriod ∧ t.auxReg = s.auxReg ∧ (∀ i c, t.patRead i c = s.patRead i c) ∧
    t.cfg = s.cfg ∧ t.inputs = s.inputs ∧ t.out.conv = s.out.conv ∧
    (∀ u v : State, exec .ftick u = .next v → u.cfg = s.cfg → u.ch = s.ch → u.auxByte = s.auxByte →
      u.serData = s.serData → u.serClk = s.serClk → u.serLatch = s.serLatch → u.trace = s.trace →
      v.ch = t.ch ∧ v.serData = t.serData ∧ v.serClk = t.serClk ∧ v.serLatch = t.serLatch ∧ v.trace = t.trace ∧
        v.out.changed = t.out.changed)

/-- A silent channel's registers and sample never change over any number of fast ticks. Formalises R102. -/
def Obligations.SilentChannelStaysFrozen : Prop :=
  ∀ (s : State) (n c : Nat) (x : Channel), s.ch[c]? = some x → x.divisor = 0#16 →
    (∃ t, execAll (List.replicate n .ftick) s = .next t ∧ t.ch[c]? = some x ∧ t.sample c = s.cfg.zeroLevel ∧
      (0 < n → t.out.changed[c]? = some false)) ∧
    (∀ (is : List Instr) (t : State), .reset ∉ is → is.count .stick ≤ s.tempoCounter.toNat →
      execAll is s = .next t → t.ch[c]? = some x ∧ t.sample c = s.cfg.zeroLevel) ∧
    (∀ t, exec .stick s = .next t → ∃ y, t.ch[c]? = some y ∧ y.phasePosition = x.phasePosition)

/-- SAMPLE(c) is ZERO_LEVEL when silent, else the Wavetable entry at the phase. Rests on 40_phase_accumulator.md
R103, 20_memory.md R52. -/
def Obligations.SampleIsTableEntryOrZeroLevel : Prop :=
  ∀ (s : State) (c : Nat) (x : Channel), s.ch[c]? = some x →
    (x.divisor = 0#16 → s.sample c = s.cfg.zeroLevel) ∧
    (x.divisor ≠ 0#16 → x.phasePosition < s.cfg.tableLen →
      s.cfg.wavetable[x.phasePosition]? = some (s.sample c))

/-- After exactly D + 1 fast ticks the phase has advanced exactly M, whatever happens between them short of a load.
Formalises R106. -/
def Obligations.PhasePeriodLaw : Prop :=
  ∀ (s : State) (c : Nat) (x : Channel), s.ch[c]? = some x → x.divisor ≠ 0#16 → x.counter ≤ x.divisor →
    (∀ (is : List Instr) (t : State), .reset ∉ is → is.count .stick ≤ s.tempoCounter.toNat →
      is.count .ftick = x.divisor.toNat + 1 → execAll is s = .next t →
      t.ch[c]? = some ⟨x.divisor, x.multiplier, x.counter,
        (x.phasePosition + x.multiplier.toNat) % s.cfg.tableLen⟩) ∧
    ((List.range (x.divisor.toNat + 1)).filter
      (fun k => ((Channel.chStep s.cfg.tableLen)^[k] x).underflows)).length = 1 ∧
    (x.counter = 0#16 → ∀ k ≤ x.divisor.toNat,
      ((Channel.chStep s.cfg.tableLen)^[k + 1] x).counter.toNat = x.divisor.toNat - k)

/-- FTICK keeps phasePosition below L and counter at most divisor. Formalises R107. -/
def Obligations.FtickKeepsRegisterRanges : Prop :=
  ∀ s t : State, exec .ftick s = .next t →
    (∀ x ∈ s.ch, x.phasePosition < s.cfg.tableLen ∧ x.counter ≤ x.divisor) →
    ∀ y ∈ t.ch, y.phasePosition < t.cfg.tableLen ∧ y.counter ≤ y.divisor

/-- No channel underflows on two consecutive fast ticks, and only multiplier mod L moves the phase. Rests on
40_phase_accumulator.md R108. -/
def Obligations.NoUnderflowOnConsecutiveTicks : Prop :=
  (∀ (s t u : State) (c : Nat), exec .ftick s = .next t → exec .ftick t = .next u →
    t.out.changed[c]? = some true → u.out.changed[c]? = some false) ∧
  (∀ (l : Nat) (x : Channel) (m : Multiplier), m.toNat % l = x.multiplier.toNat % l →
    (Channel.chStep l { x with multiplier := m }).phasePosition = (Channel.chStep l x).phasePosition)

/-- What FTICK does to a channel depends on that channel only. Formalises R105. -/
def Obligations.FtickChannelsAreIndependent : Prop :=
  ∀ (s u t v : State) (c : Nat), exec .ftick s = .next t → exec .ftick u = .next v →
    s.cfg.tableLen = u.cfg.tableLen → s.ch[c]? = u.ch[c]? →
    t.ch[c]? = v.ch[c]? ∧ t.out.changed[c]? = v.out.changed[c]?

/-- While every channel rests no operation short of a load drives a line. Rests on 70_reset_and_hazards.md R230,
43_serial_transmitter.md R169. -/
def Obligations.SilentBlockNeverTransmits : Prop :=
  ∀ (s t : State) (is : List Instr), (∀ x ∈ s.ch, x.divisor = 0#16) →
    .reset ∉ is → is.count .stick ≤ s.tempoCounter.toNat → execAll is s = .next t →
    t.trace = s.trace ∧ t.serData = s.serData ∧ t.serClk = s.serClk ∧ t.serLatch = s.serLatch

/-- STICK with a non-zero tempo counter only decrements it. Rests on 42_pattern_sequencer.md R140. -/
def Obligations.StickCountsDown : Prop :=
  ∀ s : State, s.tempoCounter ≠ 0#16 →
    ∃ t, exec .stick s = .next t ∧ t.tempoCounter.toNat + 1 = s.tempoCounter.toNat ∧
      t = { s with tempoCounter := t.tempoCounter }

/-- An expiring STICK reloads the tempo counter, loads every channel and advances the index. Formalises R141. -/
def Obligations.StickExpiryReloadsLoadsAndAdvances : Prop :=
  ∀ s : State, s.tempoCounter = 0#16 → 0 < s.cfg.patternLen →
    ∃ t, exec .stick s = .next t ∧ t.tempoCounter = s.tempoPeriod ∧
      (t.patternIndex : Int) = ((s.patternIndex : Int) + s.stepDirection.toInt) % (s.cfg.patternLen : Int) ∧
      t.ch.length = s.ch.length ∧
      ∀ (c : Nat) (x : Channel), s.ch[c]? = some x →
        ∃ y, t.ch[c]? = some y ∧ y.divisor = (s.patRead s.patternIndex c).divisor ∧
          y.multiplier = (s.patRead s.patternIndex c).multiplier ∧
          y.counter.toNat = min x.counter.toNat (s.patRead s.patternIndex c).divisor.toNat ∧
          y.phasePosition = x.phasePosition

/-- The index advance is the mathematical residue: it wraps at both ends and stays when halted. Formalises R142. -/
def Obligations.IndexAdvanceWrapsAtBothEnds : Prop :=
  ∀ s t : State, s.tempoCounter = 0#16 → s.patternIndex < s.cfg.patternLen → exec .stick s = .next t →
    (t.patternIndex : Int) = ((s.patternIndex : Int) + s.stepDirection.toInt) % (s.cfg.patternLen : Int) ∧
    (s.stepDirection = 0b01#2 →
      t.patternIndex = if s.patternIndex = s.cfg.patternLen - 1 then 0 else s.patternIndex + 1) ∧
    (s.stepDirection = 0b11#2 →
      t.patternIndex = if s.patternIndex = 0 then s.cfg.patternLen - 1 else s.patternIndex - 1) ∧
    (s.stepDirection = 0b00#2 → t.patternIndex = s.patternIndex)

/-- k expiries move the index by k d modulo N, with period exactly N when running. Formalises R146. -/
def Obligations.IndexSequenceIsPeriodic : Prop :=
  ∀ s : State, s.tempoCounter = 0#16 → s.patternIndex < s.cfg.patternLen → s.stepDirection ≠ 0b10#2 →
    (∀ k : Nat, ∃ t, execAll (List.replicate (k * (s.tempoPeriod.toNat + 1)) .stick) s = .next t ∧
      t.tempoCounter = 0#16 ∧
      (t.patternIndex : Int) = ((s.patternIndex : Int) + k * s.stepDirection.toInt) % (s.cfg.patternLen : Int) ∧
      (s.stepDirection ≠ 0b00#2 → (t.patternIndex = s.patternIndex ↔ s.cfg.patternLen ∣ k))) ∧
    (s.stepDirection ≠ 0b00#2 → ∀ j < s.cfg.patternLen,
      ∃! k, k < s.cfg.patternLen ∧
        ∃ t, execAll (List.replicate (k * (s.tempoPeriod.toNat + 1)) .stick) s = .next t ∧ t.patternIndex = j)

/-- Expiries are tempoPeriod + 1 slow ticks apart. Formalises R148. -/
def Obligations.TempoPeriodLaw : Prop :=
  ∀ s : State, s.tempoCounter = 0#16 →
    (∀ j ≤ s.tempoPeriod.toNat, execAll (List.replicate (j + 1) .stick) s =
      .next { s.expiry with tempoCounter := s.tempoPeriod - BitVec.ofNat 16 j }) ∧
    execAll (List.replicate (s.tempoPeriod.toNat + 2) .stick) s =
      .next (State.expiry { s.expiry with tempoCounter := 0#16 })

/-- A load lowers the counter to the new divisor if needed, and never writes the phase. Formalises R147. -/
def Obligations.LoadClampsCounterAndKeepsPhase : Prop :=
  ∀ (s t : State) (c : Nat) (x : Channel), s.tempoCounter = 0#16 → exec .stick s = .next t → s.ch[c]? = some x →
    ∃ y, t.ch[c]? = some y ∧ y.phasePosition = x.phasePosition ∧
      y.divisor = (s.patRead s.patternIndex c).divisor ∧
      (y.divisor < x.counter → y.counter = y.divisor) ∧
      (x.counter ≤ y.divisor → y.counter = x.counter) ∧
      (y.divisor = 0#16 → y.counter = 0#16) ∧
      (y.divisor ≠ 0#16 → ∃ k ≤ y.divisor.toNat, ((Channel.chStep s.cfg.tableLen)^[k] y).underflows = true)

/-- STICK never writes a phase, a line, a flag, the Pattern or a control register. Formalises R149. -/
def Obligations.StickTouchesNothingElse : Prop :=
  ∀ s t : State, exec .stick s = .next t →
    (∀ (c : Nat) (x : Channel), s.ch[c]? = some x →
      ∃ y, t.ch[c]? = some y ∧ y.phasePosition = x.phasePosition) ∧
    t.trace = s.trace ∧ t.serData = s.serData ∧ t.serClk = s.serClk ∧ t.serLatch = s.serLatch ∧ t.out = s.out ∧
    (∀ i c, t.patRead i c = s.patRead i c) ∧ t.stepDirection = s.stepDirection ∧
    t.tempoPeriod = s.tempoPeriod ∧ t.auxReg = s.auxReg ∧ t.cfg = s.cfg ∧ t.inputs = s.inputs

/-- While HALTED the index stays and a live edit is heard at the next expiry. Rests on 42_pattern_sequencer.md R143,
44_pattern_write.md R184. -/
def Obligations.HaltedEditHeardAtNextExpiry : Prop :=
  ∀ (s : State) (ch : ChannelBit) (d : Divisor) (m : Multiplier),
    s.tempoCounter = 0#16 → s.stepDirection = 0b00#2 → s.patternIndex < s.cfg.patternLen →
    s.ch.length = s.cfg.nch → ch.toNat < s.cfg.nch →
    ∃ t y, execAll (List.replicate (s.tempoPeriod.toNat + 1) .stick ++ [.pwrite ch d m, .stick]) s = .next t ∧
      t.patternIndex = s.patternIndex ∧ t.ch[ch.toNat]? = some y ∧ y.divisor = d ∧ y.multiplier = m

/-- SETDIR writes stepDirection and nothing else; 0b10 is refused; a direction overwritten before an expiry is never
seen. Formalises R144. -/
def Obligations.SetdirActsOnlyAtExpiries : Prop :=
  (∀ (s : State) (dir : Direction), dir ≠ 0b10#2 → exec (.setdir dir) s = .next { s with stepDirection := dir }) ∧
  (∀ s : State, exec (.setdir 0b10#2) s = .refused .reservedDirection) ∧
  (∀ (s : State) (dir : Direction), dir ≠ 0b10#2 → s.tempoCounter = 0#16 → 0 < s.cfg.patternLen →
    ∃ t, execAll [.setdir dir, .stick] s = .next t ∧
      (t.patternIndex : Int) = ((s.patternIndex : Int) + dir.toInt) % (s.cfg.patternLen : Int)) ∧
  (∀ (s : State) (a b : Direction) (mid : List Instr), a ≠ 0b10#2 → b ≠ 0b10#2 →
    mid.count .stick ≤ s.tempoCounter.toNat →
    execAll (.setdir a :: (mid ++ [.setdir b])) s = execAll (mid ++ [.setdir b]) s) ∧
  (∀ dir : Direction, dir ≠ 0b10#2 → decode (BitVec.ofNat 32 (0x40000000 + dir.toNat)) = .ok (.setdir dir)) ∧
  (∀ (o : TickOrder) (p : PortCycle), p.dirWr = true →
    true ∉ [p.rst, p.fastTick, p.slowTick, p.patWr, p.tempoWr, p.auxWr, p.convReq] → cycleRequests o p = [.setdir p.dirVal])

/-- SETTEMPO writes tempoPeriod only; the count in progress runs out at its old length. Formalises R145. -/
def Obligations.SettempoNeverActsMidCount : Prop :=
  ∀ (s : State) (p : Tempo),
    exec (.settempo p) s = .next { s with tempoPeriod := p } ∧
    execAll (.settempo p :: List.replicate s.tempoCounter.toNat .stick) s =
      .next { s with tempoPeriod := p, tempoCounter := 0#16 } ∧
    (∃ t, execAll (.settempo p :: List.replicate (s.tempoCounter.toNat + 1) .stick) s = .next t ∧
      t.tempoCounter = p) ∧
    (∀ (q : Tempo) (mid : List Instr), mid.count .stick ≤ s.tempoCounter.toNat →
      execAll (.settempo q :: (mid ++ [.settempo p])) s = execAll (mid ++ [.settempo p]) s) ∧
    decode (BitVec.ofNat 32 (0x50000000 + p.toNat)) = .ok (.settempo p) ∧
    (∀ (o : TickOrder) (c : PortCycle), c.tempoWr = true → c.tempoVal = p →
      true ∉ [c.rst, c.fastTick, c.slowTick, c.patWr, c.dirWr, c.auxWr, c.convReq] →
      cycleRequests o c = [.settempo p])

/-- SETAUX writes auxReg only; frames show it exactly when AUX_SOURCE = AUX_REG. Formalises R166. -/
def Obligations.SetauxWritesAuxiliaryRegister : Prop :=
  ∀ (s : State) (v : Byte), ∃ t, exec (.setaux v) s = .next t ∧ t = { s with auxReg := v } ∧
    (s.cfg.auxSource = .auxReg → t.auxByte = v ∧
      ∀ (is : List Instr) (u : State), .reset ∉ is → (∀ x, .setaux x ∉ is) → execAll is t = .next u →
        ∃ w, exec .ftick u = .next w ∧ w.auxByte = v ∧
          (∀ (j k : Nat) (l : List ByteSource), s.cfg.lines[j]? = some l → l[k]? = some .aux →
            (w.frameBytes.getD j [])[k]? = some v) ∧
          ((∃ x ∈ u.ch, x.divisor ≠ 0#16 ∧ x.counter = 0#16) →
            w.trace = u.trace ++ transmit w.frameBytes s.cfg.bitOrder)) ∧
    (s.cfg.auxSource = .patternIndex → t.auxByte = s.auxByte ∧
      ∀ (is : List Instr) (u : State), execAll is s = .next u →
        ∃ w, execAll is t = .next w ∧ w = { u with auxReg := w.auxReg }) ∧
    decode (BitVec.ofNat 32 (0x60000000 + v.toNat)) = .ok (.setaux v) ∧
    (∀ (o : TickOrder) (p : PortCycle), p.auxWr = true → p.auxVal = v →
      true ∉ [p.rst, p.fastTick, p.slowTick, p.patWr, p.dirWr, p.tempoWr, p.convReq] →
      cycleRequests o p = [.setaux v])

/-- The auxiliary byte is the truncated index or auxReg, as AUX_SOURCE says. Formalises R80. -/
def Obligations.AuxiliaryByteIsIndexOrRegister : Prop :=
  ∀ s : State,
    (s.cfg.auxSource = .patternIndex → s.auxByte.toNat = s.patternIndex % 256 ∧
      (s.patternIndex < 64 → s.auxByte.toNat = s.patternIndex ∧ s.auxByte.getLsbD 7 = false ∧
        s.auxByte.getLsbD 6 = false)) ∧
    (s.cfg.auxSource = .auxReg → s.auxByte = s.auxReg)

/-- PWRITE replaces the one pair at the current index and nothing else; an absent channel is refused. Formalises
R180. -/
def Obligations.PwriteReplacesOnePair : Prop :=
  ∀ (s : State) (ch : ChannelBit) (d : Divisor) (m : Multiplier),
    (ch.toNat < s.cfg.nch → s.patternIndex < s.cfg.patternLen →
      ∃ t, exec (.pwrite ch d m) s = .next t ∧
        (∀ i c, i < s.cfg.patternLen → c < s.cfg.nch →
          t.patRead i c = if i = s.patternIndex ∧ c = ch.toNat then ⟨d, m⟩ else s.patRead i c) ∧
        t = { s with pattern := t.pattern }) ∧
    (¬ ch.toNat < s.cfg.nch → exec (.pwrite ch d m) s = .refused .absentChannel) ∧
    decode (BitVec.ofNat 32 (0x30000000 + ch.toNat * 2 ^ 24 + d.toNat * 2 ^ 8 + m.toNat)) = .ok (.pwrite ch d m) ∧
    (∀ (o : TickOrder) (p : PortCycle), p.patWr = true → p.patCh = ch → p.patDiv = d → p.patMul = m →
      true ∉ [p.rst, p.fastTick, p.slowTick, p.dirWr, p.tempoWr, p.auxWr, p.convReq] →
      cycleRequests o p = [.pwrite ch d m])

/-- A PWRITE is seen by every later expiry at its index until the pair is overwritten, and by no channel register
before. Formalises R64. -/
def Obligations.PatternEditHeardAtTheLoad : Prop :=
  (∀ (s : State) (ch : ChannelBit) (d : Divisor) (m : Multiplier),
    ch.toNat < s.cfg.nch → s.ch.length = s.cfg.nch → s.patternIndex < s.cfg.patternLen →
    ∃ w, exec (.pwrite ch d m) s = .next w ∧ w.ch = s.ch ∧
      ∀ (is : List Instr) (u : State), neverOverwritten ch s.patternIndex is w = true → execAll is w = .next u →
        u.patternIndex = s.patternIndex → u.tempoCounter = 0#16 →
        ∃ v y, exec .stick u = .next v ∧ v.ch[ch.toNat]? = some y ∧ y.divisor = d ∧ y.multiplier = m) ∧
  (∀ (a b : State) (i : Instr) (ch : ChannelBit) (k : Nat), ch.toNat < a.cfg.nch → a.patternIndex < a.cfg.patternLen →
    k < a.cfg.patternLen → a.overwritesPair ch k i = false → exec i a = .next b →
    b.patRead k ch.toNat = a.patRead k ch.toNat)

/-- An expiry racing a PWRITE loads the wholly old or the wholly new pair. Rests on 20_memory.md R56,
70_reset_and_hazards.md R227, 95_test_vectors.md 1.6. -/
def Obligations.PatternWriteIsAtomicWithATick : Prop :=
  ∀ (s : State) (ch : ChannelBit) (d : Divisor) (m : Multiplier),
    s.tempoCounter = 0#16 → s.patternIndex < s.cfg.patternLen → s.ch.length = s.cfg.nch → ch.toNat < s.cfg.nch →
    (∃ t, execAll [.pwrite ch d m, .stick] s = .next t ∧
      ∀ c y, t.ch[c]? = some y → (⟨y.divisor, y.multiplier⟩ : PatternStep) =
        if c = ch.toNat then ⟨d, m⟩ else s.patRead s.patternIndex c) ∧
    (∃ t, execAll [.stick, .pwrite ch d m] s = .next t ∧
      ∀ c y, t.ch[c]? = some y → (⟨y.divisor, y.multiplier⟩ : PatternStep) = s.patRead s.patternIndex c)

/-- PWRITE of the pair already stored answers the very same state. Rests on 44_pattern_write.md R184,
notes/assumptions/8.md (Memory.wf, the canonical form of the Pattern store, DESIGN CHOICE). -/
def Obligations.RewritingTheStoredPairChangesNothing : Prop :=
  ∀ (s : State) (ch : ChannelBit), Memory.wf s.cfg s.pattern → ch.toNat < s.cfg.nch →
    exec (.pwrite ch (s.patRead s.patternIndex ch.toNat).divisor
      (s.patRead s.patternIndex ch.toNat).multiplier) s = .next s

/-- FCONV puts the rounded, clamped and saturated pair on its ports and changes no state. Formalises R120, R121. -/
def Obligations.FconvComputesRoundedSaturatedPair : Prop :=
  ∀ (s : State) (f : FreqWord), ∃ p : PatternStep,
    exec (.fconv f) s = .next { s with out := { s.out with conv := some p } } ∧
    (f = 0#24 → p = ⟨0#16, 0#8⟩) ∧
    (f ≠ 0#24 →
      p.divisor.toNat = min ((2 * (s.cfg.tickRate * 256) + f.toNat * s.cfg.tableLen) /
        (2 * (f.toNat * s.cfg.tableLen))) 65535 ∧
      p.multiplier.toNat = min (max 1 ((2 * (f.toNat * s.cfg.tableLen) + s.cfg.tickRate * 256) /
        (2 * (s.cfg.tickRate * 256)))) 255) ∧
    decode (BitVec.ofNat 32 (0x70000000 + f.toNat)) = .ok (.fconv f) ∧
    (∀ (o : TickOrder) (p : PortCycle), p.convReq = true → p.convFreq = f →
      true ∉ [p.rst, p.fastTick, p.slowTick, p.patWr, p.dirWr, p.tempoWr, p.auxWr] →
      cycleRequests o p = [.fconv f])

/-- FCONV of a non-zero frequency gives divisor 0 exactly when sigma > 2. Formalises R127. -/
def Obligations.FconvIsSilentAboveTwiceTheStepRate : Prop :=
  ∀ (c : Config) (f : FreqWord), 1 ≤ c.tableLen → 1 ≤ c.tickRate → f ≠ 0#24 →
    ((freqConv c f).divisor = 0#16 ↔ 2 * (c.tickRate * 256) < f.toNat * c.tableLen) ∧
    (freqConv c f).multiplier ≠ 0#8 ∧
    (f.toNat * c.tableLen = 2 * (c.tickRate * 256) → freqConv c f = ⟨1#16, 2#8⟩)

/-- For sigma < 3/2 FCONV's unsaturated pair is flat by 1/2 to 3/2 ticks per step; the coarse cases are (2,1),
(1,1), (1,2). Rests on 41_freq_conversion.md R128, 41_freq_conversion.md R123, 41_freq_conversion.md R124. -/
def Obligations.FconvHoldsEachStepHalfToThreeHalvesTicksTooLong : Prop :=
  ∀ (c : Config) (f : FreqWord), 1 ≤ c.tableLen → 1 ≤ c.tickRate → f ≠ 0#24 →
    (2 * (f.toNat * c.tableLen) < 3 * (c.tickRate * 256) →
      (freqConv c f).multiplier = 1#8 ∧
      ((2 * (c.tickRate * 256) + f.toNat * c.tableLen) / (2 * (f.toNat * c.tableLen)) ≤ 65535 →
        (freqConv c f).divisor.toNat =
          (2 * (c.tickRate * 256) + f.toNat * c.tableLen) / (2 * (f.toNat * c.tableLen)) ∧
        2 * (c.tickRate * 256) + f.toNat * c.tableLen <
          2 * ((freqConv c f).divisor.toNat + 1) * (f.toNat * c.tableLen) ∧
        2 * ((freqConv c f).divisor.toNat + 1) * (f.toNat * c.tableLen) ≤
          2 * (c.tickRate * 256) + 3 * (f.toNat * c.tableLen) ∧
        (freqConv c f).multiplier.toNat * (c.tickRate * 256) <
          ((freqConv c f).divisor.toNat + 1) * (f.toNat * c.tableLen))) ∧
    (c.tickRate * 256 ≤ 2 * (f.toNat * c.tableLen) → 3 * (f.toNat * c.tableLen) ≤ 2 * (c.tickRate * 256) →
      freqConv c f = ⟨2#16, 1#8⟩) ∧
    (2 * (c.tickRate * 256) < 3 * (f.toNat * c.tableLen) → 2 * (f.toNat * c.tableLen) < 3 * (c.tickRate * 256) →
      freqConv c f = ⟨1#16, 1#8⟩) ∧
    (3 * (c.tickRate * 256) ≤ 2 * (f.toNat * c.tableLen) → f.toNat * c.tableLen ≤ 2 * (c.tickRate * 256) →
      freqConv c f = ⟨1#16, 2#8⟩)

/-- The spec's remark that a saturated divisor always plays above the request (expected to fail at the edge). Rests
on 41_freq_conversion.md R128, 90_conflicts.md C12. -/
def Obligations.SaturatedFconvIsAlwaysSharp : Prop :=
  ∀ (c : Config) (f : FreqWord), 1 ≤ c.tableLen → 1 ≤ c.tickRate → f ≠ 0#24 →
    65535 < (2 * (c.tickRate * 256) + f.toNat * c.tableLen) / (2 * (f.toNat * c.tableLen)) →
    ((freqConv c f).divisor.toNat + 1) * (f.toNat * c.tableLen) <
      (freqConv c f).multiplier.toNat * (c.tickRate * 256)

/-- FCONV depends on L and R only and commutes with every other operation. Formalises R129. -/
def Obligations.FconvIsPureAndCommutes : Prop :=
  (∀ (c c' : Config) (f : FreqWord), c.tableLen = c'.tableLen → c.tickRate = c'.tickRate →
    freqConv c f = freqConv c' f) ∧
  (∀ (s : State) (f : FreqWord) (i : Instr),
    sameUpToPorts (execAll [.fconv f, i] s) (execAll [i, .fconv f] s)) ∧
  (∀ (s : State) (f : FreqWord), sameUpToPorts (exec (.fconv f) s) (.next s))

/-- NOTE ch, f stores FCONV's pair at the current index. Rests on 30_encoding.md R87, 41_freq_conversion.md R130. -/
def Obligations.NoteStoresTheConvertedPair : Prop :=
  ∀ (s : State) (ch : ChannelBit) (f : FreqWord), ch.toNat < s.cfg.nch → s.patternIndex < s.cfg.patternLen →
    ∃ t, execAll (noteOps s.cfg ch f) s = .next t ∧ t.out.conv = some (freqConv s.cfg f) ∧ t.ch = s.ch ∧
      (∀ i c, i < s.cfg.patternLen → c < s.cfg.nch →
        t.patRead i c = if i = s.patternIndex ∧ c = ch.toNat then freqConv s.cfg f else s.patRead i c)

/-- Every drive event of a frame: position, line and level. Formalises R79, R162. -/
def Obligations.FrameHasTheStatedWireSequence : Prop :=
  ∀ (s : State) (kk : Nat), s.cfg.lines ≠ [] → (∀ l ∈ s.cfg.lines, l.length = kk) →
    s.frameEvents.length = 8 * kk * (s.cfg.nlines + 2) + 2 ∧
    (∀ k < 8 * kk,
      (∀ (j : Nat) (l : List ByteSource) (src : ByteSource) (b : Byte), s.cfg.lines[j]? = some l →
        l[k / 8]? = some src →
        ((∃ c, src = .sample c ∧ b = s.sample c) ∨ (src = .aux ∧ b = s.auxByte) ∨ src = .const b) →
        s.frameEvents[k * (s.cfg.nlines + 2) + j]? = some ⟨.data j,
          b.getLsbD (if s.cfg.bitOrder = .msbFirst then 7 - k % 8 else k % 8)⟩) ∧
      s.frameEvents[k * (s.cfg.nlines + 2) + s.cfg.nlines]? = some ⟨.clk, true⟩ ∧
      s.frameEvents[k * (s.cfg.nlines + 2) + s.cfg.nlines + 1]? = some ⟨.clk, false⟩) ∧
    s.frameEvents[8 * kk * (s.cfg.nlines + 2)]? = some ⟨.latch, true⟩ ∧
    s.frameEvents[8 * kk * (s.cfg.nlines + 2) + 1]? = some ⟨.latch, false⟩

/-- The latch pulses once per frame, after its 8K clock pulses, and no clock pulses outside a frame. Formalises
R164. -/
def Obligations.OneLatchPulsePerFrameAfterAllClocks : Prop :=
  (∀ s t : State, s.cfg.lines ≠ [] → (∀ l ∈ s.cfg.lines, l.length = (s.cfg.lines.headD []).length) →
    exec .ftick s = .next t →
    ∃ evs, t.trace = s.trace ++ evs ∧
      (anyChanged s.ch = false → evs = []) ∧
      (anyChanged s.ch = true →
        evs.count ⟨.clk, true⟩ = 8 * (s.cfg.lines.headD []).length ∧
        evs.filter (fun e => e.line = .latch) = [⟨.latch, true⟩, ⟨.latch, false⟩] ∧
        ∃ bits, evs = bits ++ [⟨.latch, true⟩, ⟨.latch, false⟩])) ∧
  (∀ (s t : State) (i : Instr), i ≠ .ftick → i ≠ .reset → exec i s = .next t → t.trace = s.trace)

/-- The receiver's view of the trace after an FTICK gains exactly the frame sent. Rests on 43_serial_transmitter.md
R167, 43_serial_transmitter.md R163, notes/assumptions/17.md (receiver edges, PRESUMED). -/
def Obligations.ReceiverCommitsExactlyTheFrame : Prop :=
  ∀ (s : State) (j : Nat), s.Inv → j < s.cfg.nlines →
    ∃ t, exec .ftick s = .next t ∧
      ((∃ x ∈ s.ch, x.divisor ≠ 0#16 ∧ x.counter = 0#16) →
        committedFrames j t.trace =
          committedFrames j s.trace ++ [lineStream s.cfg.bitOrder (t.frameBytes.getD j [])]) ∧
      ((∀ x ∈ s.ch, x.divisor = 0#16 ∨ x.counter ≠ 0#16) →
        committedFrames j t.trace = committedFrames j s.trace)

/-- Every step keeps the invariant. Rests on 10_state.md R22, 10_state.md R24, 10_state.md R25, 10_state.md R31,
notes/assumptions/8.md (Memory.wf, the canonical form of the Pattern store, DESIGN CHOICE), notes/assumptions/17.md
(FramesWhole, the receiver edges of R167, PRESUMED). -/
def Obligations.StepKeepsTheInvariant : Prop :=
  ∀ s t : State, s.Inv → step s = .next t → t.Inv

/-- The reset state meets the invariant, for every parameters in range. Rests on 70_reset_and_hazards.md R221,
10_state.md R34, notes/assumptions/8.md (Memory.wf, the canonical form of the Pattern store, DESIGN CHOICE),
notes/assumptions/17.md (FramesWhole, the receiver edges of R167, PRESUMED). -/
def Obligations.ResetMeetsTheInvariant : Prop :=
  ∀ c : Config, c.WellFormed → (State.resetWith c).Inv

/-- RESET gives every register, the Pattern and the lines their reset values and empties the trace. Formalises R220,
R34, R35. -/
def Obligations.ResetPutsEveryRegisterAtItsValue : Prop :=
  ∀ s : State, ∃ t, exec .reset s = .next t ∧ t.cfg = s.cfg ∧
    t.ch = List.replicate s.cfg.nch ⟨0#16, 0#8, 0#16, 0⟩ ∧ t.patternIndex = 0 ∧ t.tempoCounter = 0#16 ∧
    t.stepDirection = 0b00#2 ∧ t.tempoPeriod = 0#16 ∧ t.auxReg = 0x00#8 ∧
    (∀ (i c : Nat) (entry : List PatternStep) (p : PatternStep), c < s.cfg.nch →
      s.cfg.patternInit[i]? = some entry → entry[c]? = some p → t.patRead i c = p) ∧
    t.serData = List.replicate s.cfg.nlines false ∧ t.serClk = false ∧ t.serLatch = false ∧ t.trace = [] ∧
    true ∉ t.out.changed ∧ decode 0xF0000000#32 = .ok .reset ∧
    (∀ (o : TickOrder) (p : PortCycle), p.rst = true → cycleRequests o p = [.reset])

/-- After reset any number of fast ticks does nothing and sends nothing. Formalises R221. -/
def Obligations.ResetStateIsQuiet : Prop :=
  ∀ (c : Config) (n : Nat),
    (∃ t, execAll (List.replicate n .ftick) (State.resetWith c) = .next t ∧
      t = { State.resetWith c with out := t.out } ∧ true ∉ t.out.changed) ∧
    (c.WellFormed → (State.resetWith c).ChannelsOk)

/-- The first STICK after RESET is an expiry of Pattern[0]; until a SETDIR of +1 or -1 every expiry reloads
Pattern[0]. Formalises R222. -/
def Obligations.FirstStickAfterResetExpires : Prop :=
  ∀ c : Config, c.WellFormed →
    (∀ (is : List Instr) (s : State), (∀ i ∈ is, keepsChannelSettings i = true) →
      execAll is (State.resetWith c) = .next s →
      ∃ t, exec .stick s = .next t ∧ t.tempoCounter = s.tempoPeriod ∧
        (t.patternIndex : Int) = s.stepDirection.toInt % (c.patternLen : Int) ∧
        ∀ k < c.nch, ∃ y, t.ch[k]? = some y ∧ y.divisor = (s.patRead 0 k).divisor ∧
          y.multiplier = (s.patRead 0 k).multiplier) ∧
    (∀ (is : List Instr) (s : State), (∀ d, .setdir d ∈ is → d = 0b00#2) →
      execAll is (State.resetWith c) = .next s →
      s.patternIndex = 0 ∧
      (s.tempoCounter = 0#16 → ∃ t, exec .stick s = .next t ∧ t.patternIndex = 0 ∧
        ∀ k < c.nch, ∃ y, t.ch[k]? = some y ∧ y.divisor = (s.patRead 0 k).divisor ∧
          y.multiplier = (s.patRead 0 k).multiplier))

/-- exec answers a next state exactly for the legal operations, in every state. Rests on 60_exceptions.md R190,
30_encoding.md R83, 20_memory.md R66. -/
def Obligations.LegalOperationsAlwaysComplete : Prop :=
  ∀ (i : Instr) (s : State), (∃ t, exec i s = .next t) ↔ i.LegalFor s.cfg = true

/-- A step refuses exactly the four kinds of request that have no meaning. Formalises R83. -/
def Obligations.IllegalWordsAreRefusedAndNoOthers : Prop :=
  ∀ (s : State) (w : EventWord) (rest : List Request), s.inputs = .event w :: rest → 1 ≤ s.cfg.nch →
    ((∃ t, step s = .next t) ↔
      (∃ r ∈ opRows, r.Matches w = true) ∧ w ≠ 0x40000002#32 ∧
        ¬ (w.extractLsb' 28 4 = 0x3#4 ∧ w.getLsbD 24 = true ∧ s.cfg.nch = 1)) ∧
    ((¬ ∃ t, step s = .next t) → ∃ r, step s = .refused r)

/-- decode (encode i) = i for every well-formed operation. Rests on 30_encoding.md R82, 30_encoding.md R83. -/
def Obligations.DecodeOfEncodeIsTheOperation : Prop :=
  ∀ i : Instr, i.WellFormed = true → decode (encode i) = .ok i

/-- A word that decodes is the encoding of what it decodes to, and that is well formed. Rests on 30_encoding.md R82,
30_encoding.md R83. -/
def Obligations.EncodeOfDecodeIsTheWord : Prop :=
  ∀ (w : EventWord) (i : Instr), decode w = .ok i → encode i = w ∧ i.WellFormed = true

/-- A word decodes exactly when it lies in a row of the map (SETDIR 0b10 apart), to that row's operation. Rests on
30_encoding.md R82, 30_encoding.md R83, opcode_table.json. -/
def Obligations.DecoderFollowsTheOperationMap : Prop :=
  (∀ w : EventWord, (∃ i, decode w = .ok i) ↔ (∃ r ∈ opRows, r.Matches w = true) ∧ w ≠ 0x40000002#32) ∧
  (∀ (w : EventWord) (i : Instr) (r : OpRow), decode w = .ok i → r ∈ opRows → r.Matches w = true →
    r.mnemonic = i.mnemonic) ∧
  (∀ (w : EventWord) (a b : OpRow), a ∈ opRows → b ∈ opRows → a.Matches w = true → b.Matches w = true → a = b)

/-- Event words written out in the spec decode to the operations it names, or are refused. Rests on
95_test_vectors.md 2.6, 95_test_vectors.md 2.5. -/
def Obligations.WordsOfTheSpecDecode : Prop :=
  decode 0x00000000#32 = .ok .nop ∧ decode 0x10000000#32 = .ok .ftick ∧ decode 0x20000000#32 = .ok .stick ∧
  decode 0x3103E801#32 = .ok (.pwrite 1#1 1000#16 1#8) ∧ decode 0x40000003#32 = .ok (.setdir 0b11#2) ∧
  decode 0x5000FFFF#32 = .ok (.settempo 65535#16) ∧ decode 0x6000005A#32 = .ok (.setaux 0x5A#8) ∧
  decode 0x7001B800#32 = .ok (.fconv 0x01B800#24) ∧ decode 0xF0000000#32 = .ok .reset ∧
  decode 0x80000000#32 = .error .reservedOp ∧ decode 0x32000301#32 = .error .reservedBits ∧
  decode 0x40000002#32 = .error .reservedDirection ∧ decode 0x71000000#32 = .error .reservedBits

/-- A step takes the next request off the list and runs the operation it decodes to. Rests on 20_memory.md R61,
30_encoding.md R81, notes/assumptions/4.md (requests as a list, DESIGN CHOICE), notes/assumptions/6.md (quiet ports,
DESIGN CHOICE). -/
def Obligations.StepRunsTheNextRequest : Prop :=
  (∀ (s : State) (w : EventWord) (rest : List Request) (i : Instr), s.inputs = .event w :: rest → decode w = .ok i →
    step s = exec i { s with inputs := rest, out := ⟨List.replicate s.cfg.nch false, none⟩ }) ∧
  (∀ s : State, s.inputs = [] → step s = .next { s with out := ⟨List.replicate s.cfg.nch false, none⟩ }) ∧
  (∀ (s : State) (w : Nat) (i : Instr), decodeTableWord 32 w = some i →
    step (s.withFetchWord 32 w) = exec i { s with out := ⟨List.replicate s.cfg.nch false, none⟩ }) ∧
  (∀ s t : State, step s = .next t → t.inputs = s.inputs.tail)

/-- The requests of one clock cycle: RESET alone, else host writes, then the ticks in TICK_ORDER. Rests on
10_state.md R37, notes/assumptions/5.md (a cycle as one step, FCONV last, DESIGN CHOICE), notes/assumptions/6.md
(quiet ports, DESIGN CHOICE). -/
def Obligations.CycleRequestsRunInTheStatedOrder : Prop :=
  ∀ (s : State) (p : PortCycle) (rest : List Request), s.inputs = .cycle p :: rest →
    (p.rst = true →
      step s = exec .reset { s with inputs := rest, out := ⟨List.replicate s.cfg.nch false, none⟩ }) ∧
    (p.rst = false →
      step s = execAll ([(p.patWr, Instr.pwrite p.patCh p.patDiv p.patMul), (p.dirWr, .setdir p.dirVal),
          (p.tempoWr, .settempo p.tempoVal), (p.auxWr, .setaux p.auxVal),
          (p.fastTick && s.cfg.tickOrder == .fastFirst, .ftick), (p.slowTick, .stick),
          (p.fastTick && s.cfg.tickOrder == .slowFirst, .ftick), (p.convReq, .fconv p.convFreq)].filterMap
            (fun q => if q.1 then some q.2 else none))
        { s with inputs := rest, out := ⟨List.replicate s.cfg.nch false, none⟩ })

/-- The ownership table: apart from RESET each field is written by the operations of one agent only. Rests on
20_memory.md R67, 10_state.md R28 (the changed flags). -/
def Obligations.EachFieldHasOneWriter : Prop :=
  ∀ (s t : State) (i : Instr), i ≠ .reset → exec i s = .next t →
    t.ch.length = s.ch.length ∧
    (i.agent ≠ .fastTick →
      t.serData = s.serData ∧ t.serClk = s.serClk ∧ t.serLatch = s.serLatch ∧ t.trace = s.trace ∧
      t.out.changed = s.out.changed ∧
      ∀ (c : Nat) (x : Channel), s.ch[c]? = some x → ∃ y, t.ch[c]? = some y ∧
        y.phasePosition = x.phasePosition ∧ y.counter ≤ x.counter ∧
        (i.agent ≠ .slowTick → y.counter = x.counter)) ∧
    (i.agent ≠ .slowTick →
      t.patternIndex = s.patternIndex ∧ t.tempoCounter = s.tempoCounter ∧
      ∀ (c : Nat) (x : Channel), s.ch[c]? = some x → ∃ y, t.ch[c]? = some y ∧
        y.divisor = x.divisor ∧ y.multiplier = x.multiplier) ∧
    (i.agent ≠ .host →
      t.stepDirection = s.stepDirection ∧ t.tempoPeriod = s.tempoPeriod ∧ t.auxReg = s.auxReg ∧
      ∀ k c, t.patRead k c = s.patRead k c)

/-- No step changes a parameter. Formalises R10. -/
def Obligations.ParametersNeverChange : Prop :=
  ∀ s t : State, step s = .next t → t.cfg = s.cfg

/-- Each source of LINES stands in the frame for the byte it names. Rests on 43_serial_transmitter.md R161,
30_encoding.md R76. -/
def Obligations.FrameBytesComeFromTheirSources : Prop :=
  ∀ s : State,
    (∀ c, s.sourceByte (.sample c) = s.sample c) ∧ s.sourceByte .aux = s.auxByte ∧
    (∀ v, s.sourceByte (.const v) = v) ∧
    s.frameBytes.length = s.cfg.nlines ∧
    (∀ (j : Nat) (l : List ByteSource), s.cfg.lines[j]? = some l →
      ∃ bytes, s.frameBytes[j]? = some bytes ∧ bytes.length = l.length ∧
        ∀ (k : Nat) (src : ByteSource) (b : Byte), l[k]? = some src →
          ((∃ c, src = .sample c ∧ b = s.sample c) ∨ (src = .aux ∧ b = s.auxByte) ∨ src = .const b) →
          bytes[k]? = some b) ∧
    s.frameEvents = transmit s.frameBytes s.cfg.bitOrder
end

