-- ==== Sys2Proof/Laws/State.lean ====
section
/-! SUPPORT. One lemma per field for each named update of the state, true by rfl, so that no later proof unfolds one.
The fields the wire changes (serData, serClk, serLatch, trace) after `driveAll` and `send` are in Laws/Wire.lean. -/

namespace Sys2Proof.Machine

variable (s : State)

/-! PatWrite -/

@[simp] theorem State.patWrite_cfg (i c : Nat) (v : PatternStep) : (s.patWrite i c v).cfg = s.cfg := rfl
@[simp] theorem State.patWrite_ch (i c : Nat) (v : PatternStep) : (s.patWrite i c v).ch = s.ch := rfl
@[simp] theorem State.patWrite_patternIndex (i c : Nat) (v : PatternStep) : (s.patWrite i c v).patternIndex = s.patternIndex := rfl
@[simp] theorem State.patWrite_tempoCounter (i c : Nat) (v : PatternStep) : (s.patWrite i c v).tempoCounter = s.tempoCounter := rfl
@[simp] theorem State.patWrite_stepDirection (i c : Nat) (v : PatternStep) : (s.patWrite i c v).stepDirection = s.stepDirection := rfl
@[simp] theorem State.patWrite_tempoPeriod (i c : Nat) (v : PatternStep) : (s.patWrite i c v).tempoPeriod = s.tempoPeriod := rfl
@[simp] theorem State.patWrite_auxReg (i c : Nat) (v : PatternStep) : (s.patWrite i c v).auxReg = s.auxReg := rfl
@[simp] theorem State.patWrite_pattern (i c : Nat) (v : PatternStep) : (s.patWrite i c v).pattern = Memory.write s.cfg s.pattern (s.cellAt i c) v := rfl
@[simp] theorem State.patWrite_serData (i c : Nat) (v : PatternStep) : (s.patWrite i c v).serData = s.serData := rfl
@[simp] theorem State.patWrite_serClk (i c : Nat) (v : PatternStep) : (s.patWrite i c v).serClk = s.serClk := rfl
@[simp] theorem State.patWrite_serLatch (i c : Nat) (v : PatternStep) : (s.patWrite i c v).serLatch = s.serLatch := rfl
@[simp] theorem State.patWrite_trace (i c : Nat) (v : PatternStep) : (s.patWrite i c v).trace = s.trace := rfl
@[simp] theorem State.patWrite_out (i c : Nat) (v : PatternStep) : (s.patWrite i c v).out = s.out := rfl
@[simp] theorem State.patWrite_inputs (i c : Nat) (v : PatternStep) : (s.patWrite i c v).inputs = s.inputs := rfl

/-! The start of a step -/

@[simp] theorem State.beginStep_cfg : (s.beginStep).cfg = s.cfg := rfl
@[simp] theorem State.beginStep_ch : (s.beginStep).ch = s.ch := rfl
@[simp] theorem State.beginStep_patternIndex : (s.beginStep).patternIndex = s.patternIndex := rfl
@[simp] theorem State.beginStep_tempoCounter : (s.beginStep).tempoCounter = s.tempoCounter := rfl
@[simp] theorem State.beginStep_stepDirection : (s.beginStep).stepDirection = s.stepDirection := rfl
@[simp] theorem State.beginStep_tempoPeriod : (s.beginStep).tempoPeriod = s.tempoPeriod := rfl
@[simp] theorem State.beginStep_auxReg : (s.beginStep).auxReg = s.auxReg := rfl
@[simp] theorem State.beginStep_pattern : (s.beginStep).pattern = s.pattern := rfl
@[simp] theorem State.beginStep_serData : (s.beginStep).serData = s.serData := rfl
@[simp] theorem State.beginStep_serClk : (s.beginStep).serClk = s.serClk := rfl
@[simp] theorem State.beginStep_serLatch : (s.beginStep).serLatch = s.serLatch := rfl
@[simp] theorem State.beginStep_trace : (s.beginStep).trace = s.trace := rfl
@[simp] theorem State.beginStep_out : (s.beginStep).out = Outputs.quiet s.cfg.nch := rfl
@[simp] theorem State.beginStep_inputs : (s.beginStep).inputs = s.inputs.tail := rfl

/-! A request placed in front -/

@[simp] theorem State.pushEvent_cfg (w : EventWord) : (s.pushEvent w).cfg = s.cfg := rfl
@[simp] theorem State.pushEvent_ch (w : EventWord) : (s.pushEvent w).ch = s.ch := rfl
@[simp] theorem State.pushEvent_patternIndex (w : EventWord) : (s.pushEvent w).patternIndex = s.patternIndex := rfl
@[simp] theorem State.pushEvent_tempoCounter (w : EventWord) : (s.pushEvent w).tempoCounter = s.tempoCounter := rfl
@[simp] theorem State.pushEvent_stepDirection (w : EventWord) : (s.pushEvent w).stepDirection = s.stepDirection := rfl
@[simp] theorem State.pushEvent_tempoPeriod (w : EventWord) : (s.pushEvent w).tempoPeriod = s.tempoPeriod := rfl
@[simp] theorem State.pushEvent_auxReg (w : EventWord) : (s.pushEvent w).auxReg = s.auxReg := rfl
@[simp] theorem State.pushEvent_pattern (w : EventWord) : (s.pushEvent w).pattern = s.pattern := rfl
@[simp] theorem State.pushEvent_serData (w : EventWord) : (s.pushEvent w).serData = s.serData := rfl
@[simp] theorem State.pushEvent_serClk (w : EventWord) : (s.pushEvent w).serClk = s.serClk := rfl
@[simp] theorem State.pushEvent_serLatch (w : EventWord) : (s.pushEvent w).serLatch = s.serLatch := rfl
@[simp] theorem State.pushEvent_trace (w : EventWord) : (s.pushEvent w).trace = s.trace := rfl
@[simp] theorem State.pushEvent_out (w : EventWord) : (s.pushEvent w).out = s.out := rfl
@[simp] theorem State.pushEvent_inputs (w : EventWord) : (s.pushEvent w).inputs = .event w :: s.inputs := rfl

/-! The channel steps of an FTICK -/

@[simp] theorem State.stepChannels_cfg : (s.stepChannels).cfg = s.cfg := rfl
@[simp] theorem State.stepChannels_ch : (s.stepChannels).ch = s.ch.map (Channel.chStep s.cfg.tableLen) := rfl
@[simp] theorem State.stepChannels_patternIndex : (s.stepChannels).patternIndex = s.patternIndex := rfl
@[simp] theorem State.stepChannels_tempoCounter : (s.stepChannels).tempoCounter = s.tempoCounter := rfl
@[simp] theorem State.stepChannels_stepDirection : (s.stepChannels).stepDirection = s.stepDirection := rfl
@[simp] theorem State.stepChannels_tempoPeriod : (s.stepChannels).tempoPeriod = s.tempoPeriod := rfl
@[simp] theorem State.stepChannels_auxReg : (s.stepChannels).auxReg = s.auxReg := rfl
@[simp] theorem State.stepChannels_pattern : (s.stepChannels).pattern = s.pattern := rfl
@[simp] theorem State.stepChannels_serData : (s.stepChannels).serData = s.serData := rfl
@[simp] theorem State.stepChannels_serClk : (s.stepChannels).serClk = s.serClk := rfl
@[simp] theorem State.stepChannels_serLatch : (s.stepChannels).serLatch = s.serLatch := rfl
@[simp] theorem State.stepChannels_trace : (s.stepChannels).trace = s.trace := rfl
@[simp] theorem State.stepChannels_out : (s.stepChannels).out = { s.out with changed := changedFlags s.ch } := rfl
@[simp] theorem State.stepChannels_inputs : (s.stepChannels).inputs = s.inputs := rfl

/-! EXPIRY -/

@[simp] theorem State.expiry_cfg : (s.expiry).cfg = s.cfg := rfl
@[simp] theorem State.expiry_ch : (s.expiry).ch = s.ch.mapIdx (fun c x => x.load (s.patRead s.patternIndex c)) := rfl
@[simp] theorem State.expiry_patternIndex : (s.expiry).patternIndex = advanceIndex s.cfg.patternLen s.patternIndex s.stepDirection := rfl
@[simp] theorem State.expiry_tempoCounter : (s.expiry).tempoCounter = s.tempoPeriod := rfl
@[simp] theorem State.expiry_stepDirection : (s.expiry).stepDirection = s.stepDirection := rfl
@[simp] theorem State.expiry_tempoPeriod : (s.expiry).tempoPeriod = s.tempoPeriod := rfl
@[simp] theorem State.expiry_auxReg : (s.expiry).auxReg = s.auxReg := rfl
@[simp] theorem State.expiry_pattern : (s.expiry).pattern = s.pattern := rfl
@[simp] theorem State.expiry_serData : (s.expiry).serData = s.serData := rfl
@[simp] theorem State.expiry_serClk : (s.expiry).serClk = s.serClk := rfl
@[simp] theorem State.expiry_serLatch : (s.expiry).serLatch = s.serLatch := rfl
@[simp] theorem State.expiry_trace : (s.expiry).trace = s.trace := rfl
@[simp] theorem State.expiry_out : (s.expiry).out = s.out := rfl
@[simp] theorem State.expiry_inputs : (s.expiry).inputs = s.inputs := rfl

/-! A request is taken from the front. -/

@[simp] theorem State.pushEvent_nextRequest (w : EventWord) : (s.pushEvent w).nextRequest = .event w := rfl

@[simp] theorem State.pushEvent_beginStep (w : EventWord) :
    (s.pushEvent w).beginStep = { s with out := Outputs.quiet s.cfg.nch } := rfl

theorem State.nextRequest_nil (h : s.inputs = []) : s.nextRequest = .cycle .idle := by
  simp [State.nextRequest, h]

theorem State.nextRequest_cons {r : Request} {rs : List Request} (h : s.inputs = r :: rs) : s.nextRequest = r := by
  simp [State.nextRequest, h]

/-! The Pattern store is read through the parameters, the store and the cell number only. -/

theorem State.patRead_congr {t : State} (hc : t.cfg = s.cfg) (hp : t.pattern = s.pattern) (i c : Nat) :
    t.patRead i c = s.patRead i c := by
  simp only [State.patRead, State.cellAt, hc, hp]

end Sys2Proof.Machine
end

