-- ==== Sys2Proof/Laws/Channel.lean ====
section
/-! SUPPORT. One channel: what CHSTEP and a load do to its registers, and what several fast ticks do. -/

namespace Sys2Proof.Machine

/-! CHSTEP, case by case (40_phase_accumulator.md R101) -/

theorem Channel.chStep_silent (l : Nat) {x : Channel} (h : x.divisor = 0#16) : x.chStep l = x := by
  simp [Channel.chStep, h]

theorem Channel.chStep_underflow (l : Nat) {x : Channel} (hd : x.divisor ≠ 0#16) (hc : x.counter = 0#16) :
    x.chStep l =
      { x with phasePosition := (x.phasePosition + x.multiplier.toNat) % l, counter := x.divisor } := by
  simp [Channel.chStep, hd, hc]

theorem Channel.chStep_hold (l : Nat) {x : Channel} (hd : x.divisor ≠ 0#16) (hc : x.counter ≠ 0#16) :
    x.chStep l = { x with counter := x.counter - 1#16 } := by
  simp [Channel.chStep, hd, hc]

@[simp] theorem Channel.chStep_divisor (l : Nat) (x : Channel) : (x.chStep l).divisor = x.divisor := by
  unfold Channel.chStep
  split <;> [skip; split] <;> rfl

@[simp] theorem Channel.chStep_multiplier (l : Nat) (x : Channel) : (x.chStep l).multiplier = x.multiplier := by
  unfold Channel.chStep
  split <;> [skip; split] <;> rfl

theorem Channel.underflows_iff (x : Channel) : x.underflows = true ↔ x.divisor ≠ 0#16 ∧ x.counter = 0#16 := by
  simp [Channel.underflows]

theorem anyChanged_iff (ch : List Channel) : anyChanged ch = true ↔ ∃ x ∈ ch, x.divisor ≠ 0#16 ∧ x.counter = 0#16 := by
  simp [anyChanged, changedFlags, Channel.underflows_iff]

/-- CHSTEP keeps the register ranges (40_phase_accumulator.md R107). -/
theorem Channel.chStep_inRange {l : Nat} {x : Channel} (hp : x.phasePosition < l) (hc : x.counter ≤ x.divisor) :
    (x.chStep l).phasePosition < l ∧ (x.chStep l).counter ≤ (x.chStep l).divisor := by
  by_cases hd : x.divisor = 0#16
  · rw [Channel.chStep_silent l hd]
    exact ⟨hp, hc⟩
  · by_cases h0 : x.counter = 0#16
    · rw [Channel.chStep_underflow l hd h0]
      exact ⟨Nat.mod_lt _ (by omega), BitVec.le_refl _⟩
    · rw [Channel.chStep_hold l hd h0]
      refine ⟨hp, ?_⟩
      change x.counter - 1#16 ≤ x.divisor
      bv_omega

/-! The load (42_pattern_sequencer.md R147) -/

theorem clampCounter_le (c d : Divisor) : clampCounter c d ≤ d := by
  unfold clampCounter
  split
  · assumption
  · exact BitVec.le_refl _

theorem clampCounter_toNat (c d : Divisor) : (clampCounter c d).toNat = min c.toNat d.toNat := by
  unfold clampCounter
  split
  · next h => rw [Nat.min_eq_left (by simpa [BitVec.le_def] using h)]
  · next h => rw [Nat.min_eq_right (by simp only [BitVec.le_def] at h; omega)]

/-! Several fast ticks -/

/-- While the counter lasts, a running channel only counts down. -/
theorem Channel.chStep_iterate_hold (l : Nat) {x : Channel} (hd : x.divisor ≠ 0#16) {n : Nat} (hn : n ≤ x.counter.toNat) :
    (Channel.chStep l)^[n] x = { x with counter := x.counter - BitVec.ofNat 16 n } := by
  induction n with
  | zero => simp
  | succ n ih =>
    rw [Function.iterate_succ_apply', ih (by omega)]
    have hne : x.counter - BitVec.ofNat 16 n ≠ 0#16 := by
      intro h
      have hlt := x.counter.isLt
      have : (x.counter - BitVec.ofNat 16 n).toNat = 0 := by rw [h]; rfl
      rw [BitVec.toNat_sub, BitVec.toNat_ofNat] at this
      omega
    have hsub : x.counter - BitVec.ofNat 16 n - 1#16 = x.counter - BitVec.ofNat 16 (n + 1) := by
      have : BitVec.ofNat 16 (n + 1) = BitVec.ofNat 16 n + 1#16 := by simp [BitVec.ofNat_add]
      rw [this]
      bv_omega
    rw [Channel.chStep_hold l (x := { x with counter := x.counter - BitVec.ofNat 16 n }) hd hne]
    simp only [hsub]

/-- The tick after the counter has run out is an underflow. -/
theorem Channel.chStep_iterate_underflow (l : Nat) {x : Channel} (hd : x.divisor ≠ 0#16) :
    (Channel.chStep l)^[x.counter.toNat + 1] x =
      { x with phasePosition := (x.phasePosition + x.multiplier.toNat) % l, counter := x.divisor } := by
  have h0 : x.counter - BitVec.ofNat 16 x.counter.toNat = 0#16 := by
    simp
  rw [Function.iterate_succ_apply', Channel.chStep_iterate_hold l hd le_rfl, h0]
  exact Channel.chStep_underflow l hd rfl

/-- D + 1 fast ticks advance the phase once and bring the counter back (40_phase_accumulator.md R106). -/
theorem Channel.chStep_iterate_period (l : Nat) {x : Channel} (hd : x.divisor ≠ 0#16) (hc : x.counter ≤ x.divisor) :
    (Channel.chStep l)^[x.divisor.toNat + 1] x =
      { x with phasePosition := (x.phasePosition + x.multiplier.toNat) % l } := by
  have hle : x.counter.toNat ≤ x.divisor.toNat := by simpa [BitVec.le_def] using hc
  have hsplit : x.divisor.toNat + 1 = (x.divisor.toNat - x.counter.toNat) + (x.counter.toNat + 1) := by omega
  rw [hsplit, Function.iterate_add_apply, Channel.chStep_iterate_underflow l hd]
  rw [Channel.chStep_iterate_hold l (x := { x with
    phasePosition := (x.phasePosition + x.multiplier.toNat) % l, counter := x.divisor }) hd (Nat.sub_le _ _)]
  have : x.divisor - BitVec.ofNat 16 (x.divisor.toNat - x.counter.toNat) = x.counter := by
    apply BitVec.eq_of_toNat_eq
    have h1 := x.divisor.isLt
    rw [BitVec.toNat_sub, BitVec.toNat_ofNat]
    omega
  simp only [this]

/-- The tick of a period that underflows is the one the counter names. -/
theorem Channel.iterate_underflows_iff (l : Nat) {x : Channel} (hd : x.divisor ≠ 0#16) (hc : x.counter ≤ x.divisor)
    {k : Nat} (hk : k ≤ x.divisor.toNat) :
    ((Channel.chStep l)^[k] x).underflows = true ↔ k = x.counter.toNat := by
  have hle : x.counter.toNat ≤ x.divisor.toNat := by simpa [BitVec.le_def] using hc
  have hlt := x.divisor.isLt
  rcases Nat.lt_or_ge x.counter.toNat k with h | h
  · obtain ⟨m, rfl⟩ : ∃ m, k = m + (x.counter.toNat + 1) := ⟨k - (x.counter.toNat + 1), by omega⟩
    rw [Function.iterate_add_apply, Channel.chStep_iterate_underflow l hd]
    rw [Channel.chStep_iterate_hold l (x := { x with
      phasePosition := (x.phasePosition + x.multiplier.toNat) % l, counter := x.divisor }) hd
      (show m ≤ x.divisor.toNat by omega), Channel.underflows_iff]
    constructor
    · rintro ⟨-, h0⟩
      have : (x.divisor - BitVec.ofNat 16 m).toNat = 0 := by simpa using congrArg BitVec.toNat h0
      rw [BitVec.toNat_sub, BitVec.toNat_ofNat] at this
      omega
    · intro h
      omega
  · rw [Channel.chStep_iterate_hold l hd h, Channel.underflows_iff]
    constructor
    · rintro ⟨-, h0⟩
      have : (x.counter - BitVec.ofNat 16 k).toNat = 0 := by simpa using congrArg BitVec.toNat h0
      rw [BitVec.toNat_sub, BitVec.toNat_ofNat] at this
      omega
    · rintro rfl
      exact ⟨hd, by simp⟩

end Sys2Proof.Machine
end

