-- ==== Sys2Proof/Laws/Codec.lean ====
section
/-! SUPPORT. Fields and words as numbers: the equations by which an encoding is read back (30_encoding.md R82). -/

namespace Sys2Proof

theorem append_toNat {a b : Nat} (x : BitVec a) (y : BitVec b) : (x ++ y).toNat = x.toNat * 2 ^ b + y.toNat := by
  rw [BitVec.toNat_append, ← Nat.shiftLeft_add_eq_or_of_lt y.isLt, Nat.shiftLeft_eq]

theorem extract_toNat {n : Nat} (w : BitVec n) (start len : Nat) :
    (w.extractLsb' start len).toNat = w.toNat / 2 ^ start % 2 ^ len := by
  rw [BitVec.extractLsb'_toNat, Nat.shiftRight_eq_div_pow]

theorem encode_pwrite_toNat (ch : ChannelBit) (d : Divisor) (m : Multiplier) :
    (encode (.pwrite ch d m)).toNat = 0x30000000 + ch.toNat * 2 ^ 24 + d.toNat * 2 ^ 8 + m.toNat := by
  have h : (encode (.pwrite ch d m)).toNat = (0x3#4 ++ 0#3 ++ ch ++ d ++ m).toNat := rfl
  rw [h, append_toNat, append_toNat, append_toNat, append_toNat]
  norm_num
  omega

theorem encode_setdir_toNat (d : Direction) : (encode (.setdir d)).toNat = 0x40000000 + d.toNat := by
  have h : (encode (.setdir d)).toNat = (0x4#4 ++ 0#26 ++ d).toNat := rfl
  rw [h, append_toNat, append_toNat]
  norm_num

theorem encode_settempo_toNat (p : Tempo) : (encode (.settempo p)).toNat = 0x50000000 + p.toNat := by
  have h : (encode (.settempo p)).toNat = (0x5#4 ++ 0#12 ++ p).toNat := rfl
  rw [h, append_toNat, append_toNat]
  norm_num

theorem encode_setaux_toNat (v : Byte) : (encode (.setaux v)).toNat = 0x60000000 + v.toNat := by
  have h : (encode (.setaux v)).toNat = (0x6#4 ++ 0#20 ++ v).toNat := rfl
  rw [h, append_toNat, append_toNat]
  norm_num

theorem encode_fconv_toNat (f : FreqWord) : (encode (.fconv f)).toNat = 0x70000000 + f.toNat := by
  have h : (encode (.fconv f)).toNat = (0x7#4 ++ 0#4 ++ f).toNat := rfl
  rw [h, append_toNat, append_toNat]
  norm_num

/-- The operation code as a number. -/
theorem opField_toNat (w : EventWord) : (opField w).toNat = w.toNat / 2 ^ 28 % 2 ^ 4 := extract_toNat w 28 4

/-! What a word of each operation code decodes to. -/

theorem decode_of_op {w : EventWord} {n : Nat} (h : (opField w).toNat = n) : decode w = decodeOp n w := by
  rw [decode, h]

/-- Fields equal as numbers are equal. -/
theorem extract_eq_iff {n len : Nat} (w : BitVec n) (start : Nat) (v : BitVec len) :
    w.extractLsb' start len = v ↔ w.toNat / 2 ^ start % 2 ^ len = v.toNat := by
  rw [← extract_toNat]
  exact ⟨fun h => by rw [h], fun h => BitVec.eq_of_toNat_eq h⟩

/-! The operation map in numbers -/

/-- A word ANDed with the mask of its high bits. -/
theorem and_highMask (w p : EventWord) (k : Nat) :
    (w &&& (BitVec.allOnes 32 <<< k)) = p ↔ w.toNat / 2 ^ k * 2 ^ k = p.toNat := by
  have h : w &&& (BitVec.allOnes 32 <<< k) = (w >>> k) <<< k := by
    ext i hi
    simp only [BitVec.getElem_and, BitVec.getElem_shiftLeft, BitVec.getElem_allOnes]
    by_cases hik : i < k
    · simp [hik]
    · simp only [hik, decide_false, Bool.not_false, Bool.true_and, Bool.and_true, BitVec.getElem_ushiftRight]
      rw [show k + (i - k) = i by omega, BitVec.getLsbD_eq_getElem hi]
  rw [h, ← BitVec.toNat_inj, BitVec.toNat_shiftLeft, BitVec.toNat_ushiftRight, Nat.shiftLeft_eq,
    Nat.shiftRight_eq_div_pow, Nat.mod_eq_of_lt]
  exact lt_of_le_of_lt (Nat.div_mul_le_self _ _) w.isLt

/-- Belonging to a row whose mask leaves out the low `k` bits. -/
theorem OpRow.matches_iff (w : EventWord) (m : String) (p : EventWord) (k : Nat) :
    (OpRow.Matches ⟨m, p, BitVec.allOnes 32 <<< k⟩ w = true) ↔ w.toNat / 2 ^ k * 2 ^ k = p.toNat := by
  rw [OpRow.Matches, beq_iff_eq, and_highMask]

/-- The rows with each mask written as a shift. -/
theorem opRows_shift : opRows =
  [⟨"NOP", 0x00000000#32, BitVec.allOnes 32 <<< 0⟩, ⟨"FTICK", 0x10000000#32, BitVec.allOnes 32 <<< 0⟩,
   ⟨"STICK", 0x20000000#32, BitVec.allOnes 32 <<< 0⟩, ⟨"PWRITE", 0x30000000#32, BitVec.allOnes 32 <<< 25⟩,
   ⟨"SETDIR", 0x40000000#32, BitVec.allOnes 32 <<< 2⟩, ⟨"SETTEMPO", 0x50000000#32, BitVec.allOnes 32 <<< 16⟩,
   ⟨"SETAUX", 0x60000000#32, BitVec.allOnes 32 <<< 8⟩, ⟨"FCONV", 0x70000000#32, BitVec.allOnes 32 <<< 24⟩,
   ⟨"RESET", 0xF0000000#32, BitVec.allOnes 32 <<< 0⟩] := by decide

/-- Belonging to a row, in numbers. -/
theorem exists_row_iff (w : EventWord) (q : String → Prop) :
    (∃ r ∈ opRows, r.Matches w = true ∧ q r.mnemonic) ↔
    (w.toNat = 0x00000000 ∧ q "NOP") ∨ (w.toNat = 0x10000000 ∧ q "FTICK") ∨ (w.toNat = 0x20000000 ∧ q "STICK") ∨
    (w.toNat / 2 ^ 25 = 0x18 ∧ q "PWRITE") ∨ (w.toNat / 2 ^ 2 = 0x10000000 ∧ q "SETDIR") ∨
    (w.toNat / 2 ^ 16 = 0x5000 ∧ q "SETTEMPO") ∨ (w.toNat / 2 ^ 8 = 0x600000 ∧ q "SETAUX") ∨
    (w.toNat / 2 ^ 24 = 0x70 ∧ q "FCONV") ∨ (w.toNat = 0xF0000000 ∧ q "RESET") := by
  rw [opRows_shift]
  simp only [List.exists_mem_cons_iff, OpRow.matches_iff, List.not_mem_nil, false_and, exists_false,
    or_false, BitVec.toNat_ofNat]
  norm_num
  rw [show (805306368 : Nat) = 0x18 * 33554432 by norm_num, Nat.mul_left_inj (by norm_num)]
  rw [show (1073741824 : Nat) = 0x10000000 * 4 by norm_num, Nat.mul_left_inj (by norm_num)]
  rw [show (1342177280 : Nat) = 0x5000 * 65536 by norm_num, Nat.mul_left_inj (by norm_num)]
  rw [show (1610612736 : Nat) = 0x600000 * 256 by norm_num, Nat.mul_left_inj (by norm_num)]
  rw [show (1879048192 : Nat) = 0x70 * 16777216 by norm_num, Nat.mul_left_inj (by norm_num)]

end Sys2Proof
end

