-- ==== Sys2Proof/Laws/Conversion.lean ====
section
/-! SUPPORT. The two fields of a converted pair as numbers (41_freq_conversion.md R125, R126). -/

namespace Sys2Proof.Machine

theorem freqConv_rest (c : Config) : freqConv c 0#24 = ⟨0#16, 0#8⟩ := rfl

theorem freqConv_divisor (c : Config) {f : FreqWord} (h : f ≠ 0#24) :
    (freqConv c f).divisor.toNat = min ((2 * (c.tickRate * 256) + f.toNat * c.tableLen) /
      (2 * (f.toNat * c.tableLen))) 65535 := by
  simp only [freqConv, if_neg h, BitVec.toNat_ofNat, saturate, roundQuot, convNum, convDen, freqFrac]
  norm_num

theorem freqConv_multiplier (c : Config) {f : FreqWord} (h : f ≠ 0#24) :
    (freqConv c f).multiplier.toNat = min (max 1 ((2 * (f.toNat * c.tableLen) + c.tickRate * 256) /
      (2 * (c.tickRate * 256)))) 255 := by
  simp only [freqConv, if_neg h, BitVec.toNat_ofNat, saturate, roundQuot, convNum, convDen, freqFrac]
  norm_num

theorem freqWord_pos {f : FreqWord} (h : f ≠ 0#24) : 1 ≤ f.toNat := by
  rcases Nat.eq_zero_or_pos f.toNat with h' | h'
  · exact absurd (BitVec.eq_of_toNat_eq (by simpa using h')) h
  · exact h'

/-- Two pairs with equal fields as numbers are equal. -/
theorem PatternStep.eq_of_toNat {p : PatternStep} {a : Divisor} {b : Multiplier} (h1 : p.divisor.toNat = a.toNat)
    (h2 : p.multiplier.toNat = b.toNat) : p = ⟨a, b⟩ := by
  cases p
  simp only at h1 h2
  rw [BitVec.eq_of_toNat_eq h1, BitVec.eq_of_toNat_eq h2]

end Sys2Proof.Machine
end

