-- ==== Sys2Proof/Laws/Wire.lean ====
section
/-! SUPPORT. The output lines and the wire trace: what `drive`, `driveAll` and `send` change, the shape of a frame, the
levels of the lines, and what a receiver makes of a frame. -/

namespace Sys2Proof.Machine

/-! One drive -/

@[simp] theorem State.drive_cfg (s : State) (e : WireEvent) : (s.drive e).cfg = s.cfg := by
  unfold State.drive
  split <;> rfl

@[simp] theorem State.drive_ch (s : State) (e : WireEvent) : (s.drive e).ch = s.ch := by
  unfold State.drive
  split <;> rfl

@[simp] theorem State.drive_patternIndex (s : State) (e : WireEvent) : (s.drive e).patternIndex = s.patternIndex := by
  unfold State.drive
  split <;> rfl

@[simp] theorem State.drive_tempoCounter (s : State) (e : WireEvent) : (s.drive e).tempoCounter = s.tempoCounter := by
  unfold State.drive
  split <;> rfl

@[simp] theorem State.drive_stepDirection (s : State) (e : WireEvent) : (s.drive e).stepDirection = s.stepDirection := by
  unfold State.drive
  split <;> rfl

@[simp] theorem State.drive_tempoPeriod (s : State) (e : WireEvent) : (s.drive e).tempoPeriod = s.tempoPeriod := by
  unfold State.drive
  split <;> rfl

@[simp] theorem State.drive_auxReg (s : State) (e : WireEvent) : (s.drive e).auxReg = s.auxReg := by
  unfold State.drive
  split <;> rfl

@[simp] theorem State.drive_pattern (s : State) (e : WireEvent) : (s.drive e).pattern = s.pattern := by
  unfold State.drive
  split <;> rfl

@[simp] theorem State.drive_out (s : State) (e : WireEvent) : (s.drive e).out = s.out := by
  unfold State.drive
  split <;> rfl

@[simp] theorem State.drive_inputs (s : State) (e : WireEvent) : (s.drive e).inputs = s.inputs := by
  unfold State.drive
  split <;> rfl

@[simp] theorem State.drive_trace (s : State) (e : WireEvent) : (s.drive e).trace = s.trace ++ [e] := by
  unfold State.drive
  split <;> rfl

@[simp] theorem State.drive_serData_length (s : State) (e : WireEvent) :
    (s.drive e).serData.length = s.serData.length := by
  unfold State.drive
  split <;> simp

/-! Several drives -/

@[simp] theorem State.driveAll_nil (s : State) : s.driveAll [] = s := rfl

@[simp] theorem State.driveAll_cons (s : State) (e : WireEvent) (evs : List WireEvent) :
    s.driveAll (e :: evs) = (s.drive e).driveAll evs := rfl

theorem State.driveAll_append (s : State) (a b : List WireEvent) : s.driveAll (a ++ b) = (s.driveAll a).driveAll b := by
  simp [State.driveAll, List.foldl_append]

@[simp] theorem State.driveAll_cfg (s : State) (evs : List WireEvent) : (s.driveAll evs).cfg = s.cfg := by
  induction evs generalizing s <;> simp_all

@[simp] theorem State.driveAll_ch (s : State) (evs : List WireEvent) : (s.driveAll evs).ch = s.ch := by
  induction evs generalizing s <;> simp_all

@[simp] theorem State.driveAll_patternIndex (s : State) (evs : List WireEvent) : (s.driveAll evs).patternIndex = s.patternIndex := by
  induction evs generalizing s <;> simp_all

@[simp] theorem State.driveAll_tempoCounter (s : State) (evs : List WireEvent) : (s.driveAll evs).tempoCounter = s.tempoCounter := by
  induction evs generalizing s <;> simp_all

@[simp] theorem State.driveAll_stepDirection (s : State) (evs : List WireEvent) : (s.driveAll evs).stepDirection = s.stepDirection := by
  induction evs generalizing s <;> simp_all

@[simp] theorem State.driveAll_tempoPeriod (s : State) (evs : List WireEvent) : (s.driveAll evs).tempoPeriod = s.tempoPeriod := by
  induction evs generalizing s <;> simp_all

@[simp] theorem State.driveAll_auxReg (s : State) (evs : List WireEvent) : (s.driveAll evs).auxReg = s.auxReg := by
  induction evs generalizing s <;> simp_all

@[simp] theorem State.driveAll_pattern (s : State) (evs : List WireEvent) : (s.driveAll evs).pattern = s.pattern := by
  induction evs generalizing s <;> simp_all

@[simp] theorem State.driveAll_out (s : State) (evs : List WireEvent) : (s.driveAll evs).out = s.out := by
  induction evs generalizing s <;> simp_all

@[simp] theorem State.driveAll_inputs (s : State) (evs : List WireEvent) : (s.driveAll evs).inputs = s.inputs := by
  induction evs generalizing s <;> simp_all

@[simp] theorem State.driveAll_trace (s : State) (evs : List WireEvent) :
    (s.driveAll evs).trace = s.trace ++ evs := by
  induction evs generalizing s <;> simp_all

@[simp] theorem State.driveAll_serData_length (s : State) (evs : List WireEvent) :
    (s.driveAll evs).serData.length = s.serData.length := by
  induction evs generalizing s <;> simp_all

/-- Driving lines and setting the transient ports are independent. -/
theorem State.driveAll_setOut (s : State) (evs : List WireEvent) (o : Outputs) :
    State.driveAll { s with out := o } evs = { s.driveAll evs with out := o } := by
  induction evs generalizing s with
  | nil => rfl
  | cons e evs ih =>
    have h : State.drive { s with out := o } e = { s.drive e with out := o } := by
      unfold State.drive
      split <;> rfl
    rw [State.driveAll_cons, State.driveAll_cons, h, ih]

/-- Driving lines and setting the direction are independent. -/
theorem State.driveAll_setStepDirection (s : State) (evs : List WireEvent) (v : Direction) :
    State.driveAll { s with stepDirection := v } evs = { s.driveAll evs with stepDirection := v } := by
  induction evs generalizing s with
  | nil => rfl
  | cons e evs ih =>
    have h : State.drive { s with stepDirection := v } e = { s.drive e with stepDirection := v } := by
      unfold State.drive
      split <;> rfl
    rw [State.driveAll_cons, State.driveAll_cons, h, ih]

/-- Driving lines and setting the tempo period are independent. -/
theorem State.driveAll_setTempoPeriod (s : State) (evs : List WireEvent) (v : Tempo) :
    State.driveAll { s with tempoPeriod := v } evs = { s.driveAll evs with tempoPeriod := v } := by
  induction evs generalizing s with
  | nil => rfl
  | cons e evs ih =>
    have h : State.drive { s with tempoPeriod := v } e = { s.drive e with tempoPeriod := v } := by
      unfold State.drive
      split <;> rfl
    rw [State.driveAll_cons, State.driveAll_cons, h, ih]

/-- Driving lines and setting the auxiliary register are independent. -/
theorem State.driveAll_setAuxReg (s : State) (evs : List WireEvent) (v : Byte) :
    State.driveAll { s with auxReg := v } evs = { s.driveAll evs with auxReg := v } := by
  induction evs generalizing s with
  | nil => rfl
  | cons e evs ih =>
    have h : State.drive { s with auxReg := v } e = { s.drive e with auxReg := v } := by
      unfold State.drive
      split <;> rfl
    rw [State.driveAll_cons, State.driveAll_cons, h, ih]

/-! SEND -/

@[simp] theorem State.send_cfg (s : State) : s.send.cfg = s.cfg := State.driveAll_cfg s _

@[simp] theorem State.send_ch (s : State) : s.send.ch = s.ch := State.driveAll_ch s _

@[simp] theorem State.send_patternIndex (s : State) : s.send.patternIndex = s.patternIndex := State.driveAll_patternIndex s _

@[simp] theorem State.send_tempoCounter (s : State) : s.send.tempoCounter = s.tempoCounter := State.driveAll_tempoCounter s _

@[simp] theorem State.send_stepDirection (s : State) : s.send.stepDirection = s.stepDirection := State.driveAll_stepDirection s _

@[simp] theorem State.send_tempoPeriod (s : State) : s.send.tempoPeriod = s.tempoPeriod := State.driveAll_tempoPeriod s _

@[simp] theorem State.send_auxReg (s : State) : s.send.auxReg = s.auxReg := State.driveAll_auxReg s _

@[simp] theorem State.send_pattern (s : State) : s.send.pattern = s.pattern := State.driveAll_pattern s _

@[simp] theorem State.send_out (s : State) : s.send.out = s.out := State.driveAll_out s _

@[simp] theorem State.send_inputs (s : State) : s.send.inputs = s.inputs := State.driveAll_inputs s _

@[simp] theorem State.send_trace (s : State) : s.send.trace = s.trace ++ s.frameEvents := State.driveAll_trace s _

@[simp] theorem State.send_serData_length (s : State) : s.send.serData.length = s.serData.length :=
  State.driveAll_serData_length s _

/-- What a frame carries depends on the parameters, the channel registers, the index and the auxiliary register only. -/
theorem State.frameEvents_congr {s t : State} (hcfg : t.cfg = s.cfg) (hch : t.ch = s.ch)
    (haux : t.auxByte = s.auxByte) : t.frameEvents = s.frameEvents := by
  have hs : ∀ c, t.sample c = s.sample c := fun c => by simp only [State.sample, hch, hcfg]
  have hb : ∀ b, t.sourceByte b = s.sourceByte b := fun b => by
    cases b <;> simp only [State.sourceByte, hs, haux]
  have hf : t.frameBytes = s.frameBytes := by
    simp only [State.frameBytes, hcfg, funext hb]
  simp only [State.frameEvents, hf, hcfg]

theorem State.auxByte_congr {s t : State} (hcfg : t.cfg = s.cfg) (hi : t.patternIndex = s.patternIndex)
    (ha : t.auxReg = s.auxReg) : t.auxByte = s.auxByte := by
  simp only [State.auxByte, hcfg, hi, ha]

@[simp] theorem State.send_frameEvents (s : State) : s.send.frameEvents = s.frameEvents :=
  State.frameEvents_congr (by simp) (by simp) (State.auxByte_congr (by simp) (by simp) (by simp))

/-! Levels -/

/-- The block has the line. -/
def State.HasLine (s : State) : Line → Prop
  | .data j => j < s.serData.length
  | .clk => True
  | .latch => True

theorem State.drive_hasLine {s : State} {e : WireEvent} {l : Line} : (s.drive e).HasLine l ↔ s.HasLine l := by
  cases l <;> simp [State.HasLine]

/-- A driven line takes the level, every other keeps its own (00_scope.md R16). -/
theorem State.drive_level {s : State} (e : WireEvent) {l : Line} (h : s.HasLine l) :
    (s.drive e).level l = if e.line = l then e.level else s.level l := by
  obtain ⟨line, level⟩ := e
  cases line with
  | data j =>
    cases l with
    | data i =>
      have hi : i < s.serData.length := h
      by_cases hij : j = i
      · subst hij
        simp [State.drive, State.level, hi]
      · simp [State.drive, State.level, List.getElem?_set_ne hij, hij]
    | clk => simp [State.drive, State.level]
    | latch => simp [State.drive, State.level]
  | clk => cases l <;> simp [State.drive, State.level]
  | latch => cases l <;> simp [State.drive, State.level]

theorem lastDriven_nil (l : Line) : lastDriven [] l = false := rfl

theorem lastDriven_concat (tr : List WireEvent) (e : WireEvent) (l : Line) :
    lastDriven (tr ++ [e]) l = if e.line = l then e.level else lastDriven tr l := by
  unfold lastDriven
  by_cases h : e.line = l <;> simp [h]

/-- Driving keeps every line at the level last driven onto it (10_state.md R31). -/
theorem State.driveAll_tracks {s : State} (evs : List WireEvent)
    (h : ∀ l, s.HasLine l → s.level l = lastDriven s.trace l) :
    ∀ l, s.HasLine l → (s.driveAll evs).level l = lastDriven (s.driveAll evs).trace l := by
  induction evs generalizing s with
  | nil => simpa using h
  | cons e evs ih =>
    intro l hl
    rw [State.driveAll_cons]
    refine ih (fun k hk => ?_) l (State.drive_hasLine.2 hl)
    have hk' := State.drive_hasLine.1 hk
    rw [State.drive_level e hk', State.drive_trace, lastDriven_concat, h k hk']

/-! Clock and latch at rest after a frame -/

theorem State.driveAll_dataEvents (s : State) (evs : List WireEvent) (h : ∀ e ∈ evs, ∃ j, e.line = .data j) :
    (s.driveAll evs).serClk = s.serClk ∧ (s.driveAll evs).serLatch = s.serLatch := by
  induction evs generalizing s with
  | nil => simp
  | cons e evs ih =>
    obtain ⟨j, hj⟩ := h e List.mem_cons_self
    obtain ⟨h1, h2⟩ := ih (s.drive e) (fun x hx => h x (List.mem_cons_of_mem _ hx))
    rw [State.driveAll_cons, h1, h2]
    simp [State.drive, hj]

/-- The data events of a bit time. -/
def dataEvents (streams : List (List Bool)) (k : Nat) : List WireEvent :=
  streams.mapIdx (fun j st => ⟨.data j, st.getD k false⟩)

theorem bitGroup_eq (streams : List (List Bool)) (k : Nat) :
    bitGroup streams k = dataEvents streams k ++ [⟨.clk, true⟩, ⟨.clk, false⟩] := rfl

theorem dataEvents_line {streams : List (List Bool)} {k : Nat} {e : WireEvent} (h : e ∈ dataEvents streams k) :
    ∃ j, e.line = .data j := by
  obtain ⟨i, hi, rfl⟩ := List.mem_mapIdx.1 h
  exact ⟨i, rfl⟩

theorem State.driveAll_bitGroup (s : State) (streams : List (List Bool)) (k : Nat) :
    (s.driveAll (bitGroup streams k)).serClk = false ∧
    (s.driveAll (bitGroup streams k)).serLatch = s.serLatch := by
  rw [bitGroup_eq, State.driveAll_append]
  obtain ⟨-, h2⟩ := s.driveAll_dataEvents (dataEvents streams k) (fun e he => dataEvents_line he)
  simp [State.drive, h2]

theorem State.driveAll_bitGroups (s : State) (streams : List (List Bool)) (ks : List Nat) (hc : s.serClk = false) :
    (s.driveAll (ks.flatMap (bitGroup streams))).serClk = false ∧
    (s.driveAll (ks.flatMap (bitGroup streams))).serLatch = s.serLatch := by
  induction ks generalizing s with
  | nil => simp [hc]
  | cons k ks ih =>
    rw [List.flatMap_cons, State.driveAll_append]
    obtain ⟨h1, h2⟩ := s.driveAll_bitGroup streams k
    obtain ⟨h3, h4⟩ := ih (s.driveAll (bitGroup streams k)) h1
    exact ⟨h3, h4.trans h2⟩

/-- After a frame the clock and the latch are 0 (43_serial_transmitter.md R163). -/
theorem State.send_atRest (s : State) (hc : s.serClk = false) : s.send.serClk = false ∧ s.send.serLatch = false := by
  unfold State.send State.frameEvents transmit
  rw [State.driveAll_append]
  obtain ⟨h1, -⟩ := s.driveAll_bitGroups (s.frameBytes.map (lineStream s.cfg.bitOrder))
    (List.range (8 * (s.frameBytes.headD []).length)) hc
  exact ⟨h1, rfl⟩

/-! Streams -/

@[simp] theorem byteBits_length (o : BitOrder) (v : Byte) : (byteBits o v).length = 8 := by
  cases o <;> rfl

@[simp] theorem lineStream_length (o : BitOrder) (bytes : List Byte) : (lineStream o bytes).length = 8 * bytes.length := by
  induction bytes with
  | nil => rfl
  | cons b bs ih =>
    simp only [lineStream, List.flatMap_cons, List.length_append, byteBits_length, List.length_cons] at ih ⊢
    omega

theorem map_getD_range (st : List Bool) (n : Nat) (h : st.length = n) :
    (List.range n).map (fun k => st.getD k false) = st := by
  subst h
  apply List.ext_getElem
  · simp
  · intro i h1 h2
    simp [h2]

/-! The receiver -/

theorem receive_append (j : Nat) (a b : List WireEvent) :
    receive j (a ++ b) = b.foldl (Receiver.see j) (receive j a) := by
  simp [receive, List.foldl_append]

theorem foldl_see_dataEvents (j n k : Nat) (streams : List (List Bool)) (r : Receiver) :
    (streams.mapIdx (fun i st => (⟨.data (i + n), st.getD k false⟩ : WireEvent))).foldl (Receiver.see j) r =
      { r with data := if n ≤ j ∧ j < n + streams.length then (streams.getD (j - n) []).getD k false else r.data } := by
  induction streams generalizing n r with
  | nil =>
    have : ¬ (n ≤ j ∧ j < n + ([] : List (List Bool)).length) := by simp
    rw [if_neg this]
    rfl
  | cons st streams ih =>
    have hidx : (fun i st => (⟨.data (i + 1 + n), st.getD k false⟩ : WireEvent)) =
        (fun (i : Nat) (st : List Bool) => (⟨.data (i + (n + 1)), st.getD k false⟩ : WireEvent)) := by
      funext i st
      rw [show i + 1 + n = i + (n + 1) by omega]
    rw [List.mapIdx_cons, List.foldl_cons, hidx, ih]
    by_cases hjn : j = n
    · subst hjn
      have h1 : ¬ (j + 1 ≤ j ∧ j < j + 1 + streams.length) := by omega
      simp [Receiver.see]
    · have hne : n ≠ j := Ne.symm hjn
      simp only [Receiver.see, Nat.zero_add, if_neg hne, List.length_cons]
      by_cases hr : n + 1 ≤ j ∧ j < n + 1 + streams.length
      · have h2 : n ≤ j ∧ j < n + (streams.length + 1) := by omega
        have h3 : j - n = (j - (n + 1)) + 1 := by omega
        rw [if_pos hr, if_pos h2, h3]
        simp
      · have h2 : ¬ (n ≤ j ∧ j < n + (streams.length + 1)) := by omega
        rw [if_neg hr, if_neg h2]

theorem foldl_see_bitGroup (j k : Nat) (streams : List (List Bool)) (r : Receiver) (hj : j < streams.length)
    (hc : r.clk = false) :
    (bitGroup streams k).foldl (Receiver.see j) r =
      { r with data := (streams.getD j []).getD k false
               shift := r.shift ++ [(streams.getD j []).getD k false] } := by
  have h := foldl_see_dataEvents j 0 k streams r
  simp only [Nat.add_zero, Nat.zero_le, Nat.zero_add, true_and, Nat.sub_zero, if_pos hj] at h
  rw [bitGroup, List.foldl_append, h]
  simp [Receiver.see, hc]

theorem foldl_see_bitGroups (j : Nat) (ks : List Nat) (streams : List (List Bool)) (r : Receiver)
    (hj : j < streams.length) (hc : r.clk = false) :
    ∃ d, (ks.flatMap (bitGroup streams)).foldl (Receiver.see j) r =
      { r with data := d, shift := r.shift ++ ks.map (fun k => (streams.getD j []).getD k false) } := by
  induction ks generalizing r with
  | nil => exact ⟨r.data, by simp⟩
  | cons k ks ih =>
    rw [List.flatMap_cons, List.foldl_append, foldl_see_bitGroup j k streams r hj hc]
    obtain ⟨d, hd⟩ := ih { r with data := (streams.getD j []).getD k false
                                  shift := r.shift ++ [(streams.getD j []).getD k false] } hc
    exact ⟨d, by rw [hd]; simp⟩

/-- A receiver at rest that sees a whole frame commits exactly the line's bit stream (43_serial_transmitter.md R163,
R167). -/
theorem foldl_see_transmit (j : Nat) (bytes : List (List Byte)) (o : BitOrder) (r : Receiver) (hj : j < bytes.length)
    (hk : ∀ l ∈ bytes, l.length = (bytes.headD []).length) (hc : r.clk = false) (hl : r.latch = false)
    (hs : r.shift = []) :
    ∃ d, (transmit bytes o).foldl (Receiver.see j) r =
      { r with data := d, frames := r.frames ++ [lineStream o (bytes.getD j [])] } := by
  have hj' : j < (bytes.map (lineStream o)).length := by simpa using hj
  obtain ⟨d, hd⟩ := foldl_see_bitGroups j (List.range (8 * (bytes.headD []).length)) (bytes.map (lineStream o)) r hj' hc
  refine ⟨d, ?_⟩
  have hst : (bytes.map (lineStream o)).getD j [] = lineStream o (bytes.getD j []) := by
    simp [List.getD_eq_getElem?_getD, hj]
  have hlen : (lineStream o (bytes.getD j [])).length = 8 * (bytes.headD []).length := by
    rw [lineStream_length, hk _ (by simp [List.getD_eq_getElem?_getD, hj])]
  rw [transmit, List.foldl_append, hd, hst, map_getD_range _ _ hlen]
  simp [latchPulse, Receiver.see, hl, hs]

/-! Positions in a frame -/

/-- The entry at block `k`, place `j` of blocks of equal length. -/
theorem getElem?_flatMap_range {α : Type} (f : Nat → List α) (m : Nat) (hm : ∀ k, (f k).length = m) {n k j : Nat}
    (hk : k < n) (hj : j < m) : ((List.range n).flatMap f)[k * m + j]? = (f k)[j]? := by
  induction n with
  | zero => omega
  | succ n ih =>
    rw [List.range_succ, List.flatMap_append]
    have hl : ((List.range n).flatMap f).length = n * m := by
      rw [List.length_flatMap]
      simp [hm]
    rcases Nat.lt_or_ge k n with h | h
    · have : k * m + j < n * m := by
        calc k * m + j < (k + 1) * m := by rw [Nat.succ_mul]; omega
          _ ≤ n * m := Nat.mul_le_mul_right _ h
      rw [List.getElem?_append_left (by omega), ih h]
    · have : k = n := by omega
      subst this
      rw [List.getElem?_append_right (by omega), hl]
      simp

theorem bitGroup_length (streams : List (List Bool)) (k : Nat) : (bitGroup streams k).length = streams.length + 2 := by
  simp [bitGroup]

/-- Bit `k` of a line's stream: the bit BIT_ORDER puts there of byte `k / 8` (43_serial_transmitter.md R162). -/
theorem lineStream_getElem? (o : BitOrder) {bytes : List Byte} {k : Nat} {b : Byte} (h : bytes[k / 8]? = some b) :
    (lineStream o bytes)[k]? = some (b.getLsbD (if o = .msbFirst then 7 - k % 8 else k % 8)) := by
  induction bytes generalizing k with
  | nil => simp at h
  | cons a as ih =>
    rw [lineStream, List.flatMap_cons]
    rcases Nat.lt_or_ge k 8 with hk | hk
    · rw [Nat.div_eq_of_lt hk] at h
      simp at h
      subst h
      rw [List.getElem?_append_left (by simpa using hk), Nat.mod_eq_of_lt hk]
      cases o <;> simp [byteBits, hk]
    · rw [List.getElem?_append_right (by simpa using hk), byteBits_length]
      have e1 : k / 8 = (k - 8) / 8 + 1 := by omega
      have e2 : k % 8 = (k - 8) % 8 := by omega
      rw [e1] at h
      rw [e2]
      exact ih (by simpa using h)

theorem bitGroup_clocks (streams : List (List Bool)) (k : Nat) : (bitGroup streams k).count ⟨.clk, true⟩ = 1 ∧
    (bitGroup streams k).filter (fun e => e.line = .latch) = [] := by
  have h : ∀ e ∈ dataEvents streams k, e ≠ ⟨.clk, true⟩ ∧ e.line ≠ .latch := by
    intro e he
    obtain ⟨j, hj⟩ := dataEvents_line he
    constructor
    · rintro rfl
      cases hj
    · rw [hj]
      simp
  rw [bitGroup_eq]
  constructor
  · rw [List.count_append, List.count_eq_zero.2 (fun hm => (h _ hm).1 rfl)]
    decide
  · rw [List.filter_append, List.filter_eq_nil_iff.2 (fun e he => by simpa using (h e he).2)]
    decide

/-- The lines a receiver sees are at the levels last driven. -/
theorem receive_levels (j : Nat) (tr : List WireEvent) : (receive j tr).data = lastDriven tr (.data j) ∧
    (receive j tr).clk = lastDriven tr .clk ∧ (receive j tr).latch = lastDriven tr .latch := by
  induction tr using List.reverseRecOn with
  | nil => simp [receive, Receiver.idle, lastDriven_nil]
  | append_singleton tr e ih =>
    obtain ⟨a, b, c⟩ := ih
    rw [receive_append, lastDriven_concat, lastDriven_concat, lastDriven_concat]
    obtain ⟨l, v⟩ := e
    cases l with
    | data i => by_cases hij : i = j <;> simp [Receiver.see, hij, a, b, c]
    | clk =>
      simp only [List.foldl_cons, List.foldl_nil, Receiver.see]
      split <;> simp_all
    | latch =>
      simp only [List.foldl_cons, List.foldl_nil, Receiver.see]
      split <;> simp_all

end Sys2Proof.Machine
end

