-- ==== Sys2Proof/Laws/Exec.lean ====
section
/-! SUPPORT. What `exec`, `execAll` and `step` answer: one spec lemma per meaning, cited instead of unfolding it. -/

namespace Sys2Proof.Machine

variable {s t : State}

/-! The meanings -/

theorem exec_nop (s : State) : exec .nop s = .next s := rfl

theorem exec_ftick (s : State) :
    exec .ftick s = .next (if anyChanged s.ch then s.stepChannels.send else s.stepChannels) := rfl

theorem exec_stick_count (h : s.tempoCounter ≠ 0#16) :
    exec .stick s = .next { s with tempoCounter := s.tempoCounter - 1#16 } := if_pos h

theorem exec_stick_expiry (h : s.tempoCounter = 0#16) : exec .stick s = .next s.expiry := if_neg (by simp [h])

theorem exec_pwrite {ch : ChannelBit} {d : Divisor} {m : Multiplier} (h : ch.toNat < s.cfg.nch) :
    exec (.pwrite ch d m) s = .next (s.patWrite s.patternIndex ch.toNat ⟨d, m⟩) := if_pos h

theorem exec_pwrite_absent {ch : ChannelBit} {d : Divisor} {m : Multiplier} (h : ¬ ch.toNat < s.cfg.nch) :
    exec (.pwrite ch d m) s = .refused .absentChannel := if_neg h

theorem exec_setdir {dir : Direction} (h : dir ≠ 0b10#2) :
    exec (.setdir dir) s = .next { s with stepDirection := dir } := if_neg h

theorem exec_setdir_reserved : exec (.setdir 0b10#2) s = .refused .reservedDirection := rfl

theorem exec_settempo (p : Tempo) (s : State) : exec (.settempo p) s = .next { s with tempoPeriod := p } := rfl

theorem exec_setaux (v : Byte) (s : State) : exec (.setaux v) s = .next { s with auxReg := v } := rfl

theorem exec_fconv (f : FreqWord) (s : State) :
    exec (.fconv f) s = .next { s with out := { s.out with conv := some (freqConv s.cfg f) } } := rfl

theorem exec_reset (s : State) : exec .reset s = .next { State.resetWith s.cfg with inputs := s.inputs } := rfl

/-- What each operation that answers a next state has done, said once: later proofs split on this. -/
theorem exec_next_cases {i : Instr} (h : exec i s = .next t) :
    (i = .nop ∧ t = s) ∨
    (i = .ftick ∧ anyChanged s.ch = true ∧ t = s.stepChannels.send) ∨
    (i = .ftick ∧ anyChanged s.ch = false ∧ t = s.stepChannels) ∨
    (i = .stick ∧ s.tempoCounter ≠ 0#16 ∧ t = { s with tempoCounter := s.tempoCounter - 1#16 }) ∨
    (i = .stick ∧ s.tempoCounter = 0#16 ∧ t = s.expiry) ∨
    (∃ ch d m, i = .pwrite ch d m ∧ ch.toNat < s.cfg.nch ∧ t = s.patWrite s.patternIndex ch.toNat ⟨d, m⟩) ∨
    (∃ dir, i = .setdir dir ∧ dir ≠ 0b10#2 ∧ t = { s with stepDirection := dir }) ∨
    (∃ p, i = .settempo p ∧ t = { s with tempoPeriod := p }) ∨
    (∃ v, i = .setaux v ∧ t = { s with auxReg := v }) ∨
    (∃ f, i = .fconv f ∧ t = { s with out := { s.out with conv := some (freqConv s.cfg f) } }) ∨
    (i = .reset ∧ t = { State.resetWith s.cfg with inputs := s.inputs }) := by
  cases i with
  | nop => cases h; simp
  | ftick =>
    rw [exec_ftick] at h
    cases h
    cases anyChanged s.ch <;> simp
  | stick =>
    by_cases h0 : s.tempoCounter = 0#16
    · rw [exec_stick_expiry h0] at h
      cases h
      simp [h0]
    · rw [exec_stick_count h0] at h
      cases h
      simp [h0]
  | pwrite ch d m =>
    by_cases hc : ch.toNat < s.cfg.nch
    · rw [exec_pwrite hc] at h
      cases h
      simp [hc]
    · rw [exec_pwrite_absent hc] at h
      cases h
  | setdir dir =>
    by_cases hd : dir = 0b10#2
    · subst hd
      rw [exec_setdir_reserved] at h
      cases h
    · rw [exec_setdir hd] at h
      cases h
      simp [hd]
  | settempo p => cases h; simp
  | setaux v => cases h; simp
  | fconv f => cases h; simp
  | reset => cases h; simp

/-- No operation writes the parameters or takes a request (00_scope.md R10). -/
theorem exec_cfg_inputs {i : Instr} (h : exec i s = .next t) : t.cfg = s.cfg ∧ t.inputs = s.inputs := by
  obtain ⟨-, rfl⟩ | ⟨-, -, rfl⟩ | ⟨-, -, rfl⟩ | ⟨-, -, rfl⟩ | ⟨-, -, rfl⟩ | ⟨_, _, _, -, -, rfl⟩ | ⟨_, -, -, rfl⟩ |
    ⟨_, -, rfl⟩ | ⟨_, -, rfl⟩ | ⟨_, -, rfl⟩ | ⟨-, rfl⟩ := exec_next_cases h <;> simp [State.resetWith]

/-- Outside RESET no operation changes the number of channels. -/
theorem exec_ch_length {i : Instr} (h : exec i s = .next t) (hr : i ≠ .reset) : t.ch.length = s.ch.length := by
  obtain ⟨-, rfl⟩ | ⟨-, -, rfl⟩ | ⟨-, -, rfl⟩ | ⟨-, -, rfl⟩ | ⟨-, -, rfl⟩ | ⟨_, _, _, -, -, rfl⟩ | ⟨_, -, -, rfl⟩ |
    ⟨_, -, rfl⟩ | ⟨_, -, rfl⟩ | ⟨_, -, rfl⟩ | ⟨rfl, -⟩ := exec_next_cases h <;> first | rfl | simp at hr ⊢

/-- A channel after an FTICK (40_phase_accumulator.md R100). -/
theorem exec_ftick_ch (h : exec .ftick s = .next t) : t.ch = s.ch.map (Channel.chStep s.cfg.tableLen) := by
  rw [exec_ftick] at h
  cases h
  split <;> simp

/-! Several operations -/

@[simp] theorem execAll_nil (s : State) : execAll [] s = .next s := rfl

theorem execAll_cons {i : Instr} (is : List Instr) (h : exec i s = .next t) : execAll (i :: is) s = execAll is t := by
  simp [execAll, h]

@[simp] theorem execAll_singleton (i : Instr) (s : State) : execAll [i] s = exec i s := by
  simp only [execAll]
  split <;> simp_all

theorem execAll_cons_next {i : Instr} {is : List Instr} (h : execAll (i :: is) s = .next t) :
    ∃ u, exec i s = .next u ∧ execAll is u = .next t := by
  simp only [execAll] at h
  split at h
  · next u hu => exact ⟨u, hu, h⟩
  · cases h
  · cases h

theorem execAll_append {a : List Instr} (b : List Instr) (h : execAll a s = .next t) :
    execAll (a ++ b) s = execAll b t := by
  induction a generalizing s with
  | nil => cases h; rfl
  | cons i is ih =>
    obtain ⟨u, hu, h⟩ := execAll_cons_next h
    rw [List.cons_append, execAll_cons _ hu, ih h]

/-- A cycle that requests nothing acts as its empty list of operations (44_pattern_write.md R183). -/
@[simp] theorem execAll_orNop (is : List Instr) (s : State) : execAll (orNop is) s = execAll is s := by
  cases is <;> rfl

/-! A step -/

theorem step_event {w : EventWord} {rs : List Request} {i : Instr} (hin : s.inputs = .event w :: rs)
    (hd : decode w = .ok i) :
    step s = exec i { s with inputs := rs, out := Outputs.quiet s.cfg.nch } := by
  simp [step, State.nextRequest, State.beginStep, hin, performRequest, hd]

theorem step_cycle {p : PortCycle} {rs : List Request} (hin : s.inputs = .cycle p :: rs) :
    step s = execAll (cycleRequests s.cfg.tickOrder p) { s with inputs := rs, out := Outputs.quiet s.cfg.nch } := by
  simp [step, State.nextRequest, State.beginStep, hin, performRequest]

theorem step_idle (hin : s.inputs = []) : step s = .next { s with out := Outputs.quiet s.cfg.nch } := by
  have : ({ s with inputs := s.inputs.tail, out := Outputs.quiet s.cfg.nch } : State) =
      { s with out := Outputs.quiet s.cfg.nch } := by simp [hin]
  simp [step, State.nextRequest, State.beginStep, hin, performRequest, cycleRequests, PortCycle.idle, hostRequests,
    tickRequests, convRequests]
  cases s.cfg.tickOrder <;> simp

end Sys2Proof.Machine
end

