-- ==== Sys2Proof/Laws/Memory.lean ====
section
/-! SUPPORT. The Pattern store: what a read gives after a write, and that every operation keeps the canonical form. -/

namespace Sys2Proof.Machine

/-! What is listed -/

theorem Memory.lookup_erase (m : List PatternCell) (a b : Nat) :
    Memory.lookup (Memory.erase m a) b = if b = a then none else Memory.lookup m b := by
  induction m with
  | nil => simp [Memory.erase, Memory.lookup]
  | cons p m ih =>
    obtain ⟨k, v⟩ := p
    simp only [Memory.erase] at ih ⊢
    by_cases hka : k = a
    · subst hka
      by_cases hb : b = k <;> simp_all [Memory.lookup]
    · by_cases hb : b = k
      · subst hb
        simp [Memory.lookup, hka]
      · simp [Memory.lookup, hka, hb, ih]

theorem Memory.lookup_insert (m : List PatternCell) (a b : Nat) (v : PatternStep) :
    Memory.lookup (Memory.insert m a v) b = if b = a then some v else Memory.lookup m b := by
  induction m with
  | nil => simp [Memory.insert, Memory.lookup]
  | cons p m ih =>
    obtain ⟨k, w⟩ := p
    simp only [Memory.insert]
    split
    · simp [Memory.lookup]
    · split
      · next h =>
        subst h
        by_cases hb : b = a <;> simp [Memory.lookup, hb]
      · next h =>
        by_cases hb : b = k
        · subst hb
          simp [Memory.lookup, Ne.symm h]
        · simp [Memory.lookup, hb, ih]

/-- A read after a write: the written pair at its cell, the old pair at every other (20_memory.md R56, R57). -/
theorem Memory.read_write (c : Config) (m : List PatternCell) (a b : Nat) (v : PatternStep) :
    Memory.read c (Memory.write c m a v) b = if b = a then v else Memory.read c m b := by
  by_cases hv : v = initialStep c a <;> by_cases hb : b = a <;>
    simp [Memory.read, Memory.write, Memory.lookup_erase, Memory.lookup_insert, hv, hb]

/-! The canonical form -/

theorem Memory.mem_insert {m : List PatternCell} {a : Nat} {v : PatternStep} {p : PatternCell}
    (h : p ∈ Memory.insert m a v) : p = (a, v) ∨ p ∈ m := by
  induction m with
  | nil => simpa [Memory.insert] using h
  | cons q m ih =>
    obtain ⟨k, w⟩ := q
    simp only [Memory.insert] at h
    split at h
    · simpa using h
    · split at h
      · rcases List.mem_cons.1 h with h | h
        · exact .inl h
        · exact .inr (List.mem_cons_of_mem _ h)
      · rcases List.mem_cons.1 h with h | h
        · exact .inr (h ▸ List.mem_cons_self)
        · exact (ih h).imp_right (List.mem_cons_of_mem _)

theorem Memory.pairwise_insert {m : List PatternCell} (a : Nat) (v : PatternStep)
    (h : m.Pairwise (fun p q => p.1 < q.1)) : (Memory.insert m a v).Pairwise (fun p q => p.1 < q.1) := by
  induction m with
  | nil => simp [Memory.insert]
  | cons q m ih =>
    obtain ⟨k, w⟩ := q
    obtain ⟨hk, hm⟩ := List.pairwise_cons.1 h
    simp only [Memory.insert]
    split
    · next hlt =>
      refine List.pairwise_cons.2 ⟨?_, h⟩
      intro p hp
      rcases List.mem_cons.1 hp with rfl | hp
      · exact hlt
      · exact hlt.trans (hk p hp)
    · split
      · next heq =>
        subst heq
        exact List.pairwise_cons.2 ⟨hk, hm⟩
      · next hlt hne =>
        refine List.pairwise_cons.2 ⟨?_, ih hm⟩
        intro p hp
        rcases Memory.mem_insert hp with rfl | hp
        · change k < a
          omega
        · exact hk p hp

/-- A write to one of the N x NCH cells keeps the canonical form. -/
theorem Memory.write_wf {c : Config} {m : List PatternCell} {a : Nat} (v : PatternStep)
    (h : Memory.wf c m) (ha : a < c.nch * c.patternLen) : Memory.wf c (Memory.write c m a v) := by
  obtain ⟨hs, hm⟩ := h
  unfold Memory.write
  split
  · exact ⟨hs.sublist List.filter_sublist, fun p hp => hm p (List.mem_of_mem_filter hp)⟩
  · next hv =>
    refine ⟨Memory.pairwise_insert a v hs, fun p hp => ?_⟩
    rcases Memory.mem_insert hp with rfl | hp
    · exact ⟨hv, ha⟩
    · exact hm p hp

theorem Memory.wf_nil (c : Config) : Memory.wf c [] := ⟨List.Pairwise.nil, by simp⟩

/-- In canonical form a listed cell is found. -/
theorem Memory.lookup_of_mem {m : List PatternCell} (h : m.Pairwise (fun p q => p.1 < q.1)) {p : PatternCell}
    (hp : p ∈ m) : Memory.lookup m p.1 = some p.2 := by
  induction m with
  | nil => simp at hp
  | cons q m ih =>
    obtain ⟨k, w⟩ := q
    obtain ⟨hk, hm⟩ := List.pairwise_cons.1 h
    rcases List.mem_cons.1 hp with rfl | hp
    · simp [Memory.lookup]
    · have hlt := hk p hp
      have hne : p.1 ≠ k := by
        change k < p.1 at hlt
        omega
      simp [Memory.lookup, hne, ih hm hp]

/-! Cells of entries and channels -/

/-- Within the channels of an entry the cell numbers of two places differ. -/
theorem cellOf_inj {nch i c i' c' : Nat} (hc : c < nch) (hc' : c' < nch) :
    cellOf nch i c = cellOf nch i' c' ↔ i = i' ∧ c = c' := by
  constructor
  · intro h
    have e1 : cellOf nch i c / nch = i := by
      unfold cellOf
      rw [Nat.mul_add_div (by omega), Nat.div_eq_of_lt hc, Nat.add_zero]
    have e2 : cellOf nch i' c' / nch = i' := by
      unfold cellOf
      rw [Nat.mul_add_div (by omega), Nat.div_eq_of_lt hc', Nat.add_zero]
    have hi : i = i' := by rw [← e1, ← e2, h]
    subst hi
    exact ⟨rfl, by simpa [cellOf] using h⟩
  · rintro ⟨rfl, rfl⟩
    rfl

theorem cellOf_lt {nch n i c : Nat} (hi : i < n) (hc : c < nch) : cellOf nch i c < nch * n := by
  unfold cellOf
  calc nch * i + c < nch * i + nch := by omega
    _ = nch * (i + 1) := by rw [Nat.mul_succ]
    _ ≤ nch * n := Nat.mul_le_mul_left _ hi

/-- An in-range index addresses its own entry. -/
theorem State.cellAt_eq {s : State} {i : Nat} (c : Nat) (hi : i < s.cfg.patternLen) :
    s.cellAt i c = cellOf s.cfg.nch i c := by
  simp [State.cellAt, Nat.mod_eq_of_lt hi]

/-- PatRead after PatWrite (20_memory.md R57): the written pair at its place, the old pair at every other. -/
theorem State.patRead_patWrite {s : State} {i c i' c' : Nat} (v : PatternStep) (hi : i < s.cfg.patternLen)
    (hi' : i' < s.cfg.patternLen) (hc : c < s.cfg.nch) (hc' : c' < s.cfg.nch) :
    (s.patWrite i c v).patRead i' c' = if i' = i ∧ c' = c then v else s.patRead i' c' := by
  have hcell : (s.patWrite i c v).cellAt i' c' = cellOf s.cfg.nch i' c' := State.cellAt_eq (s := s.patWrite i c v) c' hi'
  rw [State.patRead, hcell]
  simp only [State.patWrite_cfg, State.patWrite_pattern, Memory.read_write, State.cellAt_eq c hi,
    cellOf_inj hc' hc, State.patRead, State.cellAt_eq c' hi']

/-- An unwritten place reads as PATTERN_INIT (10_state.md R34). -/
theorem State.patRead_of_pattern_nil {s : State} (h : s.pattern = []) (i c : Nat) :
    s.patRead i c = initialStep s.cfg (s.cellAt i c) := by
  simp [State.patRead, Memory.read, Memory.lookup, h]

/-- PATTERN_INIT by entry and channel. -/
theorem initialStep_cellOf (c : Config) (i k : Nat) (hk : k < c.nch) :
    initialStep c (cellOf c.nch i k) = (c.patternInit.getD i []).getD k PatternStep.rest := by
  have h1 : cellOf c.nch i k / c.nch = i := by
    unfold cellOf
    rw [Nat.mul_add_div (by omega), Nat.div_eq_of_lt hk, Nat.add_zero]
  have h2 : cellOf c.nch i k % c.nch = k := by
    unfold cellOf
    rw [Nat.mul_add_mod, Nat.mod_eq_of_lt hk]
  simp only [initialStep, h1, h2]

/-- Writing the pair a cell already holds leaves the canonical store as it is, entry for entry. -/
theorem Memory.write_read_self {c : Config} {m : List PatternCell} (h : Memory.wf c m) (a : Nat) :
    Memory.write c m a (Memory.read c m a) = m := by
  obtain ⟨hs, hm⟩ := h
  by_cases hmem : ∃ v, (a, v) ∈ m
  · obtain ⟨v, hv⟩ := hmem
    have hl : Memory.lookup m a = some v := Memory.lookup_of_mem hs hv
    have hne : v ≠ initialStep c a := (hm _ hv).1
    simp only [Memory.read, hl, Option.getD_some, Memory.write, if_neg hne]
    clear hl hm hne
    induction m with
    | nil => simp at hv
    | cons q m ih =>
      obtain ⟨k, w⟩ := q
      obtain ⟨hk, hm⟩ := List.pairwise_cons.1 hs
      rcases List.mem_cons.1 hv with hq | hq
      · obtain ⟨rfl, rfl⟩ := Prod.mk.inj hq
        simp [Memory.insert]
      · have hlt : k < a := hk _ hq
        have h1 : ¬ a < k := by omega
        have h2 : a ≠ k := by omega
        simp [Memory.insert, h1, h2, ih hm hq]
  · have hl : Memory.lookup m a = none := by
      clear hs hm
      induction m with
      | nil => rfl
      | cons q m ih =>
        obtain ⟨k, w⟩ := q
        have hk : a ≠ k := by
          rintro rfl
          exact hmem ⟨w, List.mem_cons_self⟩
        simp only [Memory.lookup, if_neg hk]
        exact ih (fun ⟨v, hv⟩ => hmem ⟨v, List.mem_cons_of_mem _ hv⟩)
    simp only [Memory.read, hl, Option.getD_none, Memory.write, if_pos, Memory.erase]
    refine List.filter_eq_self.2 (fun p hp => ?_)
    obtain ⟨k, w⟩ := p
    have : k ≠ a := by
      rintro rfl
      exact hmem ⟨w, hp⟩
    simpa using this

end Sys2Proof.Machine
end

