-- ==== Sys2Proof/Laws/PerInstr.lean ====
section
/-! SUPPORT. Statements made of every operation, one lemma per constructor (30_encoding.md R82). -/

/-- The event word an operation encodes to lies in its own row of the operation map. -/
def Sys2Proof.Laws.EncodesInItsRow.Statement (i : Sys2Proof.Instr) : Prop :=
  ∃ r ∈ Sys2Proof.opRows, r.Matches (Sys2Proof.encode i) = true ∧ r.mnemonic = i.mnemonic

namespace Sys2Proof.Laws.EncodesInItsRow

theorem nop : Statement .nop := by
  unfold Statement
  decide

theorem ftick : Statement .ftick := by
  unfold Statement
  decide

theorem stick : Statement .stick := by
  unfold Statement
  decide

theorem pwrite (ch : ChannelBit) (div : Divisor) (mul : Multiplier) : Statement (.pwrite ch div mul) := by
  refine (exists_row_iff _ (· = "PWRITE")).2 ?_
  have h1 := ch.isLt
  have h2 := div.isLt
  have h3 := mul.isLt
  rw [encode_pwrite_toNat]
  simp
  omega

theorem setdir (dir : Direction) : Statement (.setdir dir) := by
  refine (exists_row_iff _ (· = "SETDIR")).2 ?_
  have h1 := dir.isLt
  rw [encode_setdir_toNat]
  simp
  omega

theorem settempo (period : Tempo) : Statement (.settempo period) := by
  refine (exists_row_iff _ (· = "SETTEMPO")).2 ?_
  have h1 := period.isLt
  rw [encode_settempo_toNat]
  simp
  omega

theorem setaux (val : Byte) : Statement (.setaux val) := by
  refine (exists_row_iff _ (· = "SETAUX")).2 ?_
  have h1 := val.isLt
  rw [encode_setaux_toNat]
  simp
  omega

theorem fconv (freq : FreqWord) : Statement (.fconv freq) := by
  refine (exists_row_iff _ (· = "FCONV")).2 ?_
  have h1 := freq.isLt
  rw [encode_fconv_toNat]
  simp
  omega

theorem reset : Statement .reset := by
  unfold Statement
  decide

end Sys2Proof.Laws.EncodesInItsRow
end

