-- ==== Sys2Proof/Laws/Sequencer.lean ====
section
/-! SUPPORT. The index advance (42_pattern_sequencer.md R142). -/

namespace Sys2Proof.Machine

theorem advanceIndex_lt {n : Nat} (i : Nat) (d : Direction) (h : 0 < n) : advanceIndex n i d < n := by
  unfold advanceIndex
  have h1 : (0 : Int) ≤ ((i : Int) + dirValue d) % (n : Int) := Int.emod_nonneg _ (by omega)
  have h2 : ((i : Int) + dirValue d) % (n : Int) < n := Int.emod_lt_of_pos _ (by omega)
  omega

/-- The advanced index as the mathematical residue. -/
theorem advanceIndex_cast {n : Nat} (i : Nat) (d : Direction) (h : 0 < n) :
    (advanceIndex n i d : Int) = ((i : Int) + dirValue d) % (n : Int) :=
  Int.toNat_of_nonneg (Int.emod_nonneg _ (by omega))

@[simp] theorem dirValue_halted : dirValue 0b00#2 = 0 := by decide
@[simp] theorem dirValue_forward : dirValue 0b01#2 = 1 := by decide
@[simp] theorem dirValue_backward : dirValue 0b11#2 = -1 := by decide

theorem direction_cases (d : Direction) (h : d ≠ 0b10#2) : d = 0b00#2 ∨ d = 0b01#2 ∨ d = 0b11#2 := by
  revert d
  decide

theorem advanceIndex_halted {n i : Nat} (h : i < n) : advanceIndex n i 0b00#2 = i := by
  unfold advanceIndex
  rw [dirValue_halted, Int.add_zero, Int.emod_eq_of_lt (by omega) (by omega)]
  rfl

theorem advanceIndex_forward {n i : Nat} (h : i < n) :
    advanceIndex n i 0b01#2 = if i = n - 1 then 0 else i + 1 := by
  unfold advanceIndex
  rw [dirValue_forward]
  split
  · next he =>
    have : (i : Int) + 1 = n := by omega
    rw [this, Int.emod_self]
    rfl
  · rw [Int.emod_eq_of_lt (by omega) (by omega)]
    rfl

theorem advanceIndex_backward {n i : Nat} (h : i < n) :
    advanceIndex n i 0b11#2 = if i = 0 then n - 1 else i - 1 := by
  unfold advanceIndex
  rw [dirValue_backward]
  split
  · next he =>
    subst he
    have : ((0 : Nat) : Int) + -1 = ((n : Int) - 1) + (n : Int) * (-1) := by push_cast; omega
    rw [this, Int.add_mul_emod_self_left, Int.emod_eq_of_lt (by omega) (by omega)]
    omega
  · rw [Int.emod_eq_of_lt (by omega) (by omega)]
    omega

end Sys2Proof.Machine
end

