-- ==== Sys2Proof/Laws/Runs.lean ====
section
/-! SUPPORT. Runs of operations: what several ticks do, and what a run that avoids some operations leaves alone. -/

namespace Sys2Proof.Machine

variable {s t : State}

/-! Fast ticks -/

/-- The transient ports after an FTICK: the flags of this tick, the conversion ports as they were. -/
theorem exec_ftick_out (h : exec .ftick s = .next t) : t.out = { s.out with changed := changedFlags s.ch } := by
  rw [exec_ftick] at h
  cases h
  split <;> simp

/-- `n` fast ticks step every channel `n` times. -/
theorem execAll_fticks (n : Nat) (s : State) : ∃ t, execAll (List.replicate n .ftick) s = .next t ∧
    t.ch = s.ch.map ((Channel.chStep s.cfg.tableLen)^[n]) ∧ t.cfg = s.cfg := by
  induction n generalizing s with
  | zero => exact ⟨s, rfl, by simp, rfl⟩
  | succ n ih =>
    obtain ⟨u, hu, h2, h3⟩ := ih (if anyChanged s.ch then s.stepChannels.send else s.stepChannels)
    obtain ⟨hc, -⟩ := exec_cfg_inputs (exec_ftick s)
    refine ⟨u, ?_, ?_, h3.trans hc⟩
    · rw [List.replicate_succ, execAll_cons _ (exec_ftick s), hu]
    · rw [h2, exec_ftick_ch (exec_ftick s), hc]
      simp [Function.iterate_succ]

/-! Slow ticks -/

/-- While the tempo counter lasts, slow ticks only count down. -/
theorem execAll_sticks_count (n : Nat) (s : State) (hn : n ≤ s.tempoCounter.toNat) :
    execAll (List.replicate n .stick) s = .next { s with tempoCounter := s.tempoCounter - BitVec.ofNat 16 n } := by
  induction n generalizing s with
  | zero => simp
  | succ n ih =>
    have hne : s.tempoCounter ≠ 0#16 := by
      rintro h
      rw [h] at hn
      simp at hn
    rw [List.replicate_succ, execAll_cons _ (exec_stick_count hne), ih]
    · congr 2
      have : BitVec.ofNat 16 (n + 1) = BitVec.ofNat 16 n + 1#16 := by simp [BitVec.ofNat_add]
      rw [this]
      bv_omega
    · change n ≤ (s.tempoCounter - 1#16).toNat
      have hlt := s.tempoCounter.isLt
      rw [BitVec.toNat_sub]
      simp
      omega

/-- A channel after an expiry: loaded from its pair at the index before the advance (42_pattern_sequencer.md R141). -/
theorem State.expiry_getElem? {c : Nat} {x : Channel} (hx : s.ch[c]? = some x) :
    s.expiry.ch[c]? = some (x.load (s.patRead s.patternIndex c)) := by
  simp [hx]

/-- No operation takes the index out of the Pattern (42_pattern_sequencer.md R142). -/
theorem exec_patternIndex_lt {i : Instr} (h : exec i s = .next t) (hi : s.patternIndex < s.cfg.patternLen) :
    t.patternIndex < t.cfg.patternLen := by
  obtain ⟨-, rfl⟩ | ⟨-, -, rfl⟩ | ⟨-, -, rfl⟩ | ⟨-, -, rfl⟩ | ⟨-, -, rfl⟩ | ⟨_, _, _, -, -, rfl⟩ | ⟨_, -, -, rfl⟩ |
    ⟨_, -, rfl⟩ | ⟨_, -, rfl⟩ | ⟨_, -, rfl⟩ | ⟨-, rfl⟩ := exec_next_cases h
  iterate 4 simpa using hi
  · exact advanceIndex_lt _ _ (by omega)
  iterate 5 simpa using hi
  · simp only [State.resetWith]
    omega

/-- A run that starts with an operation, by the outcome of that operation. -/
theorem execAll_cons_eq (i : Instr) (is : List Instr) (s : State) :
    execAll (i :: is) s =
      match exec i s with
      | .next t => execAll is t
      | .fault r => .fault r
      | .refused r => .refused r := rfl

/-! Operations that neither load nor reset -/

/-- Apart from FTICK, RESET and an expiring STICK no operation writes a channel or an output line. -/
theorem exec_keeps_channels {i : Instr} (h : exec i s = .next t) (hr : i ≠ .reset)
    (hs : i = .stick → s.tempoCounter ≠ 0#16) (hf : i ≠ .ftick) :
    t.ch = s.ch ∧ t.trace = s.trace ∧ t.serData = s.serData ∧ t.serClk = s.serClk ∧ t.serLatch = s.serLatch := by
  obtain ⟨-, rfl⟩ | ⟨rfl, -, rfl⟩ | ⟨rfl, -, rfl⟩ | ⟨rfl, -, rfl⟩ | ⟨rfl, h0, rfl⟩ | ⟨_, _, _, -, -, rfl⟩ | ⟨_, -, -, rfl⟩ |
    ⟨_, -, rfl⟩ | ⟨_, -, rfl⟩ | ⟨_, -, rfl⟩ | ⟨rfl, -⟩ := exec_next_cases h <;> simp_all

theorem exec_keeps_sequencer {i : Instr} (h : exec i s = .next t) (hk : keepsChannelSettings i = true) :
    t.tempoCounter = s.tempoCounter ∧ t.patternIndex = s.patternIndex ∧ t.ch.length = s.ch.length ∧ t.cfg = s.cfg := by
  refine ⟨?_, ?_, exec_ch_length h (by rintro rfl; simp [keepsChannelSettings] at hk), (exec_cfg_inputs h).1⟩ <;>
  obtain ⟨-, rfl⟩ | ⟨rfl, -, rfl⟩ | ⟨rfl, -, rfl⟩ | ⟨rfl, -, rfl⟩ | ⟨rfl, -, rfl⟩ | ⟨_, _, _, -, -, rfl⟩ | ⟨_, -, -, rfl⟩ |
    ⟨_, -, rfl⟩ | ⟨_, -, rfl⟩ | ⟨_, -, rfl⟩ | ⟨rfl, -⟩ := exec_next_cases h <;> simp_all [keepsChannelSettings]

/-- Counting: while a run holds no more STICKs than the tempo counter, its first operation is no expiry and leaves enough
of the counter for the rest. -/
theorem exec_stick_budget {i : Instr} {is : List Instr} (h : exec i s = .next t) (hr : i ≠ .reset)
    (hc : (i :: is).count .stick ≤ s.tempoCounter.toNat) :
    (i = .stick → s.tempoCounter ≠ 0#16) ∧ is.count .stick ≤ t.tempoCounter.toNat := by
  by_cases hi : i = .stick
  · subst hi
    rw [List.count_cons_self] at hc
    have hne : s.tempoCounter ≠ 0#16 := by
      rintro h0
      simp [h0] at hc
    rw [exec_stick_count hne] at h
    cases h
    refine ⟨fun _ => hne, ?_⟩
    change _ ≤ (s.tempoCounter - 1#16).toNat
    have hlt := s.tempoCounter.isLt
    rw [BitVec.toNat_sub]
    simp
    omega
  · have ht : t.tempoCounter = s.tempoCounter := by
      obtain ⟨-, rfl⟩ | ⟨rfl, -, rfl⟩ | ⟨rfl, -, rfl⟩ | ⟨rfl, -, rfl⟩ | ⟨rfl, -, rfl⟩ | ⟨_, _, _, -, -, rfl⟩ |
        ⟨_, -, -, rfl⟩ | ⟨_, -, rfl⟩ | ⟨_, -, rfl⟩ | ⟨_, -, rfl⟩ | ⟨rfl, -⟩ := exec_next_cases h <;> simp_all
    rw [ht]
    exact ⟨fun h => absurd h hi, by simpa [List.count_cons, hi] using hc⟩

/-- The channels after a run without RESET in which no STICK expires: one channel step per FTICK in it. -/
theorem execAll_channels (is : List Instr) (hr : .reset ∉ is) (hc : is.count .stick ≤ s.tempoCounter.toNat)
    (h : execAll is s = .next t) :
    t.ch = s.ch.map ((Channel.chStep s.cfg.tableLen)^[is.count .ftick]) ∧ t.cfg = s.cfg := by
  induction is generalizing s with
  | nil => cases h; simp
  | cons i is ih =>
    obtain ⟨u, hu, h⟩ := execAll_cons_next h
    rw [List.mem_cons, not_or] at hr
    obtain ⟨hi, hr⟩ := hr
    obtain ⟨hs, hc⟩ := exec_stick_budget hu (Ne.symm hi) hc
    obtain ⟨h1, h2⟩ := ih hr hc h
    obtain ⟨hcfg, -⟩ := exec_cfg_inputs hu
    refine ⟨?_, h2.trans hcfg⟩
    by_cases hf : i = .ftick
    · subst hf
      rw [h1, exec_ftick_ch hu, hcfg]
      simp [Function.iterate_succ]
    · rw [h1, (exec_keeps_channels hu (Ne.symm hi) hs hf).1, hcfg]
      simp [hf]

/-! Operations that send nothing -/

theorem exec_keeps_trace {i : Instr} (h : exec i s = .next t) (hf : i ≠ .ftick) (hr : i ≠ .reset) : t.trace = s.trace := by
  obtain ⟨-, rfl⟩ | ⟨rfl, -, rfl⟩ | ⟨rfl, -, rfl⟩ | ⟨rfl, -, rfl⟩ | ⟨rfl, -, rfl⟩ | ⟨_, _, _, -, -, rfl⟩ | ⟨_, -, -, rfl⟩ |
    ⟨_, -, rfl⟩ | ⟨_, -, rfl⟩ | ⟨_, -, rfl⟩ | ⟨rfl, -⟩ := exec_next_cases h <;> simp_all

end Sys2Proof.Machine
end

