-- ==== Sys2Proof/Tests/Slice0.lean ====
section
/-! SUPPORT. The model's own tests, each expected value taken from the spec (mostly 95_test_vectors.md), and for every
statement with hypotheses a witness that meets them all. -/

namespace Sys2Proof.Tests

open Sys2Proof.Machine

/-! Small blocks and states -/

/-- 95_test_vectors.md section 0 and 2.2: one channel, T8, N = 4, Pattern [(3,1), (0,0), (1,1), (9,2)]. -/
def cfgA : Config :=
  { Config.reference with
    nch := 1, lines := referenceLines 1, patternInit := [[⟨3, 1⟩], [⟨0, 0⟩], [⟨1, 1⟩], [⟨9, 2⟩]] }

/-- 95_test_vectors.md program P3: two channels, N = 4. -/
def cfgAB : Config :=
  { Config.reference with
    patternInit := [[⟨3, 1⟩, ⟨0, 0⟩], [⟨0, 0⟩, ⟨0, 0⟩], [⟨1, 1⟩, ⟨2, 2⟩], [⟨9, 2⟩, ⟨1, 4⟩]] }

/-- cfgA with a Wavetable of `l` entries and tick rate `r`, for FCONV. -/
def cfgConv (l r : Nat) : Config := { cfgA with wavetable := List.replicate l 0x80, tickRate := r }

theorem cfgConv_tableLen (l r : Nat) : (cfgConv l r).tableLen = l := by simp [cfgConv, Config.tableLen]

theorem cfgConv_tickRate (l r : Nat) : (cfgConv l r).tickRate = r := rfl

/-- A state of a block with parameters `c`: channels, index, tempo counter, tempo period, direction. -/
def mk (c : Config) (ch : List Channel) (idx : Nat) (tc tp : Tempo) (dir : Direction) : State :=
  { State.resetWith c with ch := ch, patternIndex := idx, tempoCounter := tc, tempoPeriod := tp, stepDirection := dir }

/-- The next state an outcome holds. -/
def nextOf : Host.Outcome State Fault Refusal → Option State
  | .next s => some s
  | .fault _ => none
  | .refused _ => none

/-- The refusal an outcome holds. -/
def refusalOf : Host.Outcome State Fault Refusal → Option Refusal
  | .next _ => none
  | .fault _ => none
  | .refused r => some r

/-- The state with one request to come. -/
def withRequest (s : State) (r : Request) : State := { s with inputs := [r] }

/-- A bit string as the spec writes it, first driven bit on the left. -/
def bits (text : String) : List Bool := (text.toList.filter (· ≠ ' ')).map (· = '1')

/-! Well-formedness: each check refuses an ill-formed term (30_encoding.md R72, R76, R83, 00_scope.md R9) -/

theorem test_wellFormed_setdir : Instr.WellFormed (.setdir 0b10) = false ∧ Instr.WellFormed (.setdir 0b11) = true := by
  decide

theorem test_legalFor_channel : Instr.LegalFor cfgA (.pwrite 1 3 1) = false ∧ Instr.LegalFor cfgA (.pwrite 0 3 1) = true ∧
    Instr.LegalFor cfgAB (.pwrite 1 3 1) = true := by
  decide

theorem test_config_good : cfgA.WellFormed ∧ cfgAB.WellFormed ∧ Config.reference.WellFormed := by
  decide

theorem test_config_nch : ¬ { cfgA with nch := 0 }.WellFormed ∧ ¬ { cfgA with nch := 3 }.WellFormed := by
  decide

theorem test_config_wavetable : ¬ { cfgA with wavetable := [] }.WellFormed := by
  decide

theorem test_config_pattern : ¬ { cfgA with patternInit := [] }.WellFormed ∧
    ¬ { cfgA with patternInit := [[⟨3, 1⟩, ⟨3, 1⟩]] }.WellFormed := by
  decide

theorem test_config_tickRate : ¬ { cfgA with tickRate := 0 }.WellFormed := by
  decide

theorem test_byteSource_inRange : ByteSource.InRange 1 (.sample 1) = false ∧ ByteSource.InRange 2 (.sample 1) = true := by
  decide

/-- No line, a line of no source, lines of unequal length. -/
theorem test_lines_shape : ¬ LinesWellFormed 1 [] ∧ ¬ LinesWellFormed 1 [[]] ∧
    ¬ LinesWellFormed 1 [[.sample 0, .const 0], [.aux]] := by
  decide

/-- SAMPLE(0) missing, SAMPLE(0) twice, AUX missing, AUX twice, a sample of an absent channel. -/
theorem test_lines_sources : ¬ LinesWellFormed 1 [[.aux]] ∧ ¬ LinesWellFormed 1 [[.sample 0, .sample 0, .aux]] ∧
    ¬ LinesWellFormed 1 [[.sample 0]] ∧ ¬ LinesWellFormed 1 [[.sample 0, .aux, .aux]] ∧
    ¬ LinesWellFormed 1 [[.sample 0, .sample 1, .aux]] := by
  decide

/-- The LINES of vectors W3 and W4 of 95_test_vectors.md 2.3 are well formed. -/
theorem test_lines_good : LinesWellFormed 1 [[.sample 0], [.aux]] ∧
    LinesWellFormed 2 [[.sample 0, .aux], [.sample 1, .const 0xFF]] := by
  decide

theorem test_memory_wf_reset : Memory.wf State.reset.cfg State.reset.pattern := by
  decide

/-- A listed cell with the value it reads as unlisted, cells out of order, a cell past the end. -/
theorem test_memory_illFormed : ¬ Memory.wf cfgA [(0, ⟨3, 1⟩)] ∧ ¬ Memory.wf cfgA [(1, ⟨1, 1⟩), (0, ⟨1, 1⟩)] ∧
    ¬ Memory.wf cfgA [(4, ⟨1, 1⟩)] := by
  decide

/-! Decoding: words written out from 30_encoding.md R82, as 95_test_vectors.md 2.6 lists them -/

theorem test_decode_nop : decode 0b0000_0000000000000000000000000000#32 = .ok .nop := by decide

theorem test_decode_ftick : decode 0b0001_0000000000000000000000000000#32 = .ok .ftick := by decide

theorem test_decode_stick : decode 0b0010_0000000000000000000000000000#32 = .ok .stick := by decide

/-- op 0x3, three reserved bits, ch, div, mul: PWRITE B, 1000, 1 and PWRITE A, 65535, 255. -/
theorem test_decode_pwrite : decode 0b0011_000_1_0000001111101000_00000001#32 = .ok (.pwrite 1 1000 1) ∧
    decode 0b0011_000_0_1111111111111111_11111111#32 = .ok (.pwrite 0 65535 255) := by decide

theorem test_decode_setdir : decode 0b0100_00000000000000000000000000_11#32 = .ok (.setdir 0b11) ∧
    decode 0b0100_00000000000000000000000000_01#32 = .ok (.setdir 0b01) ∧
    decode 0b0100_00000000000000000000000000_00#32 = .ok (.setdir 0b00) := by decide

theorem test_decode_settempo : decode 0b0101_000000000000_1111111111111111#32 = .ok (.settempo 65535) := by decide

theorem test_decode_setaux : decode 0b0110_00000000000000000000_01011010#32 = .ok (.setaux 0x5A) := by decide

theorem test_decode_fconv : decode 0b0111_0000_000000011011100000000000#32 = .ok (.fconv 112640) := by decide

theorem test_decode_reset : decode 0b1111_0000000000000000000000000000#32 = .ok .reset := by decide

/-- The refused words of 95_test_vectors.md 2.5. -/
theorem test_decode_refused : decode 0x80000000 = .error .reservedOp ∧ decode 0xE1234567 = .error .reservedOp ∧
    decode 0x00000001 = .error .reservedBits ∧ decode 0x10000001 = .error .reservedBits ∧
    decode 0x20008000 = .error .reservedBits ∧ decode 0x32000301 = .error .reservedBits ∧
    decode 0x40000002 = .error .reservedDirection ∧ decode 0x40000004 = .error .reservedBits ∧
    decode 0x50010000 = .error .reservedBits ∧ decode 0x60000100 = .error .reservedBits ∧
    decode 0x71000000 = .error .reservedBits ∧ decode 0xF0000001 = .error .reservedBits := by decide

/-- Encoding, from the same list. -/
theorem test_encode : encode (.pwrite 1 3 1) = 0x31000301 ∧ encode (.setdir 0b11) = 0x40000003 ∧
    encode (.settempo 1) = 0x50000001 ∧ encode (.setaux 0xFF) = 0x600000FF ∧ encode (.fconv 0xFFFFFF) = 0x70FFFFFF := by
  decide

/-- 95_test_vectors.md 2.6: a table word, and how the operations are written (30_encoding.md R86, R87). -/
theorem test_decodeTableWord : decodeTableWord 32 0x31000301 = some (.pwrite 1 3 1) ∧
    decodeTableWord 32 0x80000000 = none := by decide

theorem test_listing : listing (.pwrite 1 3 1) = "PWRITE B, 3, 1" ∧ listing (.setdir 0b11) = "SETDIR -1" ∧
    listing (.fconv 0x001B80) = "FCONV 27.5" ∧ listing (.fconv 0xFFFFFF) = "FCONV 65535.99609375" ∧
    listing (.fconv 0x01B800) = "FCONV 440" := by decide

/-- NOTE A, 110 at L = 16, R = 16000 is 0x70006E00 then 0x30000901; REST B is 0x31000000. -/
theorem test_pseudo : (noteOps (cfgConv 16 16000) 0 0x006E00).map encode = [0x70006E00, 0x30000901] ∧
    encode (restOp 1) = 0x31000000 ∧ encode fwdOp = 0x40000001 ∧ encode haltOp = 0x40000000 ∧
    encode revOp = 0x40000003 := by decide

/-! One step of each operation -/

/-- 95_test_vectors.md P8. -/
theorem test_nop : nextOf (exec .nop (mk cfgA [⟨3, 1, 2, 5⟩] 1 2 7 0b01)) = some (mk cfgA [⟨3, 1, 2, 5⟩] 1 2 7 0b01) := by
  decide

/-- 95_test_vectors.md F15: both channels underflow, one frame [0x00, 0xDA, 0x01] of 74 events. -/
theorem test_ftick_underflow :
    (nextOf (exec .ftick (mk cfgAB [⟨3, 1, 0, 5⟩, ⟨2, 2, 0, 1⟩] 1 0 0 0))).map
      (fun t => (t.ch, t.out.changed, t.trace.length, committedFrames 0 t.trace)) =
    some ([⟨3, 1, 3, 6⟩, ⟨2, 2, 2, 3⟩], [true, true], 74, [bits "0000 0000 1101 1010 0000 0001"]) := by
  decide

/-- 95_test_vectors.md F18 and F2: a silent channel holds its phase and sends ZERO_LEVEL; a counter above 0 only falls. -/
theorem test_ftick_silent_and_hold :
    (nextOf (exec .ftick (mk cfgAB [⟨0, 0, 0, 5⟩, ⟨2, 2, 0, 1⟩] 1 0 0 0))).map
      (fun t => (t.ch, t.out.changed, t.frameBytes)) =
      some ([⟨0, 0, 0, 5⟩, ⟨2, 2, 2, 3⟩], [false, true], [[0x80, 0xDA, 0x01]]) ∧
    (nextOf (exec .ftick (mk cfgA [⟨3, 1, 2, 5⟩] 0 0 0 0))).map (fun t => (t.ch, t.trace)) =
      some ([⟨3, 1, 1, 5⟩], []) := by
  decide

/-- 95_test_vectors.md S6 (halted, counter clamped) and S2 (count to 0). -/
theorem test_stick_halted_and_count :
    (nextOf (exec .stick (mk cfgA [⟨3, 1, 2, 5⟩] 2 0 7 0b00))).map (fun t => (t.tempoCounter, t.patternIndex, t.ch)) =
      some (7, 2, [⟨1, 1, 1, 5⟩]) ∧
    (nextOf (exec .stick (mk cfgA [⟨3, 1, 2, 5⟩] 1 1 7 0b01))).map (fun t => (t.tempoCounter, t.patternIndex, t.ch)) =
      some (0, 1, [⟨3, 1, 2, 5⟩]) := by
  decide

/-- 95_test_vectors.md S4 (forward wrap) and S5 (backward wrap). -/
theorem test_stick_wraps :
    (nextOf (exec .stick (mk cfgA [⟨3, 1, 2, 5⟩] 3 0 7 0b01))).map (fun t => (t.patternIndex, t.ch)) =
      some (0, [⟨9, 2, 2, 5⟩]) ∧
    (nextOf (exec .stick (mk cfgA [⟨3, 1, 2, 5⟩] 0 0 7 0b11))).map (fun t => (t.patternIndex, t.ch)) =
      some (3, [⟨3, 1, 2, 5⟩]) := by
  decide

/-- 95_test_vectors.md P1: only the pair at the index changes. -/
theorem test_pwrite :
    (nextOf (exec (.pwrite 0 7 2) (mk cfgA [⟨3, 1, 2, 5⟩] 2 0 0 0))).map
      (fun t => ((List.range 4).map (fun i => t.patRead i 0), t.ch)) =
    some ([⟨3, 1⟩, ⟨0, 0⟩, ⟨7, 2⟩, ⟨9, 2⟩], [⟨3, 1, 2, 5⟩]) := by
  decide

/-- 95_test_vectors.md P2 on two channels: B's pair, not A's; and 0x31000301 is refused when NCH = 1 (2.5). -/
theorem test_pwrite_channel :
    (nextOf (exec (.pwrite 1 3 1) (mk cfgAB [⟨0, 0, 0, 0⟩, ⟨0, 0, 0, 0⟩] 1 0 0 0))).map
      (fun t => (t.patRead 1 0, t.patRead 1 1)) = some (⟨0, 0⟩, ⟨3, 1⟩) ∧
    refusalOf (exec (.pwrite 1 3 1) (mk cfgA [⟨0, 0, 0, 0⟩] 1 0 0 0)) = some .absentChannel := by
  decide

/-- 95_test_vectors.md 2.2 and 2.5. -/
theorem test_setdir :
    nextOf (exec (.setdir 0b11) (mk cfgA [⟨3, 1, 2, 5⟩] 1 2 7 0b01)) = some (mk cfgA [⟨3, 1, 2, 5⟩] 1 2 7 0b11) ∧
    refusalOf (exec (.setdir 0b10) (mk cfgA [⟨3, 1, 2, 5⟩] 1 2 7 0b01)) = some .reservedDirection := by
  decide

/-- 95_test_vectors.md 2.2: the tempo counter is not touched. -/
theorem test_settempo :
    nextOf (exec (.settempo 0xFFFF) (mk cfgA [⟨3, 1, 2, 5⟩] 1 2 7 0b01)) =
      some (mk cfgA [⟨3, 1, 2, 5⟩] 1 2 65535 0b01) := by
  decide

/-- 95_test_vectors.md 2.3, W4: two lines of two bytes, LSB first, auxiliary byte from auxReg. -/
def cfgW4 : Config :=
  { cfgAB with lines := [[.sample 0, .aux], [.sample 1, .const 0xFF]], bitOrder := .lsbFirst, auxSource := .auxReg }

/-- SETAUX 0x5A sends nothing; a frame of the state after it has the 66 events and the bits of W4. -/
theorem test_setaux :
    (nextOf (exec (.setaux 0x5A) (mk cfgW4 [⟨3, 1, 3, 1⟩, ⟨2, 1, 2, 6⟩] 0 0 0 0))).map
      (fun t => (t.auxReg, t.trace.length + t.frameEvents.length,
        [committedFrames 0 t.frameEvents, committedFrames 1 t.frameEvents])) =
    some (0x5A, 66, [[bits "0101 1011 0101 1010"], [bits "0000 0000 1111 1111"]]) := by
  decide

/-- 95_test_vectors.md 2.4, L = 16, R = 16000: 440 Hz, the tie at 1500 Hz, the saturated 1/256 Hz, silence above 2000. -/
theorem test_fconv :
    (nextOf (exec (.fconv 0x01B800) (mk (cfgConv 16 16000) [] 0 0 0 0))).map (fun t => t.out.conv) =
      some (some ⟨2, 1⟩) ∧
    freqConv (cfgConv 16 16000) 0x05DC00 = ⟨1, 2⟩ ∧ freqConv (cfgConv 16 16000) 0x000001 = ⟨65535, 1⟩ ∧
    freqConv (cfgConv 16 16000) 0x07D000 = ⟨1, 2⟩ ∧ freqConv (cfgConv 16 16000) 0x07D001 = ⟨0, 2⟩ ∧
    freqConv (cfgConv 16 16000) 0 = ⟨0, 0⟩ := by
  simp [exec, execFconv, nextOf, mk, State.resetWith, freqConv, convNum, convDen, roundQuot, saturate,
    cfgConv_tableLen, cfgConv_tickRate, freqFrac, PatternStep.rest]

/-- 95_test_vectors.md 2.4: a tie in the divisor, a multiplier that saturates, L = 32 at R = 31250. -/
theorem test_fconv_tables : freqConv (cfgConv 16 12000) 0x012C00 = ⟨3, 1⟩ ∧
    freqConv (cfgConv 256 16000) 0xFFFFFF = ⟨0, 255⟩ ∧ freqConv (cfgConv 256 16000) 0x000100 = ⟨63, 1⟩ ∧
    freqConv (cfgConv 32 31250) 0x05DC00 = ⟨1, 2⟩ := by
  simp [freqConv, convNum, convDen, roundQuot, saturate, cfgConv_tableLen, cfgConv_tickRate, freqFrac]

/-- 95_test_vectors.md P9: the edited Pattern and the trace are lost. -/
theorem test_reset :
    nextOf (exec .reset { mk cfgA [⟨3, 1, 2, 5⟩] 2 3 7 0b11 with
      pattern := [(2, ⟨7, 2⟩)], auxReg := 0x5A, trace := [⟨.latch, true⟩], serData := [true] }) =
    some (mk cfgA [⟨0, 0, 0, 0⟩] 0 0 0 0b00) := by
  decide

/-! The wire -/

/-- 95_test_vectors.md W1: one frame of [0xDA, 0x01] under both bit orders, 50 events. -/
theorem test_frame_bits :
    committedFrames 0 (transmit [[0xDA, 0x01]] .msbFirst) = [bits "1101 1010 0000 0001"] ∧
    committedFrames 0 (transmit [[0xDA, 0x01]] .lsbFirst) = [bits "0101 1011 1000 0000"] ∧
    (transmit [[0xDA, 0x01]] .msbFirst).length = 50 := by
  decide

/-- 95_test_vectors.md W3: the start and the end of the 34 events of two lines, D0 D1 C1 C0 per bit, then L1 L0. -/
theorem test_frame_two_lines :
    (transmit [[0xDA], [0x01]] .msbFirst).take 4 = [⟨.data 0, true⟩, ⟨.data 1, false⟩, ⟨.clk, true⟩, ⟨.clk, false⟩] ∧
    (transmit [[0xDA], [0x01]] .msbFirst).drop 28 =
      [⟨.data 0, false⟩, ⟨.data 1, true⟩, ⟨.clk, true⟩, ⟨.clk, false⟩, ⟨.latch, true⟩, ⟨.latch, false⟩] := by
  decide

/-! The step and the cycle -/

/-- 70_reset_and_hazards.md R222, from State.reset itself: the placed word is the next operation. -/
theorem test_step_fetch :
    (nextOf (step (State.reset.withFetchWord 32 0x50000007))).map (fun t => (t.tempoPeriod, t.inputs)) = some (7, []) ∧
    refusalOf (step (State.reset.withFetchWord 32 0x32000301)) = some (.illegalWord 0x32000301 .reservedBits) := by
  decide

/-- 95_test_vectors.md T1 and T2: FTICK and STICK in one cycle under either TICK_ORDER. -/
theorem test_cycle_tickOrder :
    (nextOf (step (withRequest (mk cfgA [⟨3, 1, 0, 5⟩] 1 0 0 0b01)
      (.cycle { PortCycle.idle with fastTick := true, slowTick := true })))).map
      (fun t => (t.ch, t.patternIndex, t.trace.length)) = some ([⟨0, 0, 0, 6⟩], 2, 50) ∧
    (nextOf (step (withRequest (mk { cfgA with tickOrder := .slowFirst } [⟨3, 1, 0, 5⟩] 1 0 0 0b01)
      (.cycle { PortCycle.idle with fastTick := true, slowTick := true })))).map
      (fun t => (t.ch, t.patternIndex, t.trace.length)) = some ([⟨0, 0, 0, 5⟩], 2, 0) := by
  decide

/-- 95_test_vectors.md 2.8: the PWRITE of a cycle comes before its STICK; RESET drops the rest. -/
theorem test_cycle_hostFirst :
    (nextOf (step (withRequest (mk cfgA [⟨1, 1, 0, 4⟩] 2 0 0 0b00)
      (.cycle { PortCycle.idle with slowTick := true, patWr := true, patDiv := 7, patMul := 2 })))).map
      (fun t => t.ch) = some [⟨7, 2, 0, 4⟩] ∧
    (nextOf (step (withRequest (mk cfgA [⟨1, 1, 0, 4⟩] 2 0 0 0b00)
      (.cycle { PortCycle.idle with rst := true, slowTick := true, auxWr := true, auxVal := 9 })))).map
      (fun t => (t.ch, t.auxReg)) = some ([⟨0, 0, 0, 0⟩], 0) := by
  decide

/-! Witnesses: for each statement with hypotheses, a state and operands that meet them, clause by clause -/

/-- One channel at an underflow, index 1, forward. -/
def playing : State := mk cfgA [⟨3, 1, 0, 5⟩] 1 0 7 0b01

/-- The same block with its channel silent. -/
def resting : State := mk cfgA [⟨0, 255, 0, 3⟩] 1 0 7 0b01

/-- A silent channel, an underflow at the largest divisor, a hold at the smallest and at the largest counter. -/
theorem witness_FtickStepsEveryChannel :
    (mk cfgAB [⟨0, 255, 0, 3⟩, ⟨65535, 1, 0, 7⟩] 0 0 0 0).ch[0]? = some ⟨0, 255, 0, 3⟩ ∧
    (mk cfgAB [⟨0, 255, 0, 3⟩, ⟨65535, 1, 0, 7⟩] 0 0 0 0).ch[1]? = some ⟨65535, 1, 0, 7⟩ ∧
    (mk cfgAB [⟨1, 1, 1, 0⟩, ⟨65535, 1, 65535, 7⟩] 0 0 0 0).ch[0]? = some ⟨1, 1, 1, 0⟩ ∧
    (mk cfgAB [⟨1, 1, 1, 0⟩, ⟨65535, 1, 65535, 7⟩] 0 0 0 0).ch[1]? = some ⟨65535, 1, 65535, 7⟩ := by decide

theorem witness_FtickSendsOneFrameIffUnderflow :
    (∃ x ∈ playing.ch, x.divisor ≠ 0#16 ∧ x.counter = 0#16) ∧
    (∀ x ∈ resting.ch, x.divisor = 0#16 ∨ x.counter ≠ 0#16) := by decide

/-- Two states that differ in Pattern, tempo and direction only. -/
theorem witness_FtickTouchesAndReadsNothingElse :
    ∃ t v, exec .ftick playing = .next t ∧
      exec .ftick { playing with pattern := [(0, ⟨1, 1⟩)], tempoPeriod := 9, stepDirection := 0b11 } = .next v ∧
      playing.ch[0]? = some ⟨3, 1, 0, 5⟩ ∧
      ({ playing with pattern := [(0, ⟨1, 1⟩)], tempoPeriod := 9, stepDirection := 0b11 } : State).auxByte =
        playing.auxByte := ⟨_, _, rfl, rfl, by decide⟩

/-- A Rest; a run that spends the whole tempo counter of 1 among fast ticks and host writes; a load. -/
theorem witness_SilentChannelStaysFrozen :
    resting.ch[0]? = some ⟨0, 255, 0, 3⟩ ∧ (∃ t, exec .stick resting = .next t) ∧
    .reset ∉ [Instr.ftick, .stick, .pwrite 0 7 2, .ftick] ∧
    [Instr.ftick, .stick, .pwrite 0 7 2, .ftick].count .stick ≤ (mk cfgA [⟨0, 255, 0, 3⟩] 0 1 7 0).tempoCounter.toNat ∧
    ∃ t, execAll [.ftick, .stick, .pwrite 0 7 2, .ftick] (mk cfgA [⟨0, 255, 0, 3⟩] 0 1 7 0) = .next t :=
  ⟨by decide, ⟨_, rfl⟩, by decide, by decide, _, rfl⟩

/-- A silent channel; a running one at the last Wavetable entry. -/
theorem witness_SampleIsTableEntryOrZeroLevel :
    resting.ch[0]? = some ⟨0, 255, 0, 3⟩ ∧ (mk cfgA [⟨3, 1, 2, 7⟩] 0 0 0 0).ch[0]? = some ⟨3, 1, 2, 7⟩ ∧
    7 < cfgA.tableLen := by decide

/-- D = 1 with the counter at D, two FTICKs with a host write and two counting STICKs, all that the tempo counter
lasts; and an underflow at the largest divisor. -/
theorem witness_PhasePeriodLaw :
    .reset ∉ [Instr.ftick, .stick, .setaux 1, .stick, .ftick] ∧
    [Instr.ftick, .stick, .setaux 1, .stick, .ftick].count .stick ≤ (mk cfgA [⟨1, 1, 1, 7⟩] 0 2 0 0).tempoCounter.toNat ∧
    [Instr.ftick, .stick, .setaux 1, .stick, .ftick].count .ftick = (1#16).toNat + 1 ∧ (1#16) ≤ 1#16 ∧
    (mk cfgA [⟨1, 1, 1, 7⟩] 0 2 0 0).ch[0]? = some ⟨1, 1, 1, 7⟩ ∧
    (mk cfgA [⟨65535, 1, 0, 7⟩] 0 0 0 0).ch[0]? = some ⟨65535, 1, 0, 7⟩ ∧ 65535 ≤ (65535#16).toNat := by decide

theorem witness_PhasePeriodLaw_run :
    ∃ t, execAll [.ftick, .stick, .setaux 1, .stick, .ftick] (mk cfgA [⟨1, 1, 1, 7⟩] 0 2 0 0) = .next t := ⟨_, rfl⟩

/-- Phase L - 1, counter at the divisor. -/
theorem witness_FtickKeepsRegisterRanges :
    ∃ t, exec .ftick (mk cfgA [⟨3, 1, 3, 7⟩] 0 0 0 0) = .next t ∧
      ∀ x ∈ (mk cfgA [⟨3, 1, 3, 7⟩] 0 0 0 0).ch, x.phasePosition < cfgA.tableLen ∧ x.counter ≤ x.divisor :=
  ⟨_, rfl, by decide⟩

/-- The smallest audible divisor; multipliers 1 and 9 modulo 8. -/
theorem witness_NoUnderflowOnConsecutiveTicks :
    (∃ t u, exec .ftick (mk cfgA [⟨1, 1, 0, 0⟩] 0 0 0 0) = .next t ∧ exec .ftick t = .next u ∧
      t.out.changed[0]? = some true) ∧ (9#8).toNat % 8 = (1#8).toNat % 8 :=
  ⟨⟨_, _, rfl, rfl, by decide⟩, by decide⟩

/-- The same channel A beside two different channels B. -/
theorem witness_FtickChannelsAreIndependent :
    ∃ t v, exec .ftick (mk cfgAB [⟨3, 1, 0, 5⟩, ⟨2, 2, 0, 1⟩] 0 0 0 0) = .next t ∧
      exec .ftick (mk cfgAB [⟨3, 1, 0, 5⟩, ⟨0, 0, 0, 6⟩] 0 0 0 0) = .next v ∧
      (mk cfgAB [⟨3, 1, 0, 5⟩, ⟨2, 2, 0, 1⟩] 0 0 0 0).ch[0]? = (mk cfgAB [⟨3, 1, 0, 5⟩, ⟨0, 0, 0, 6⟩] 0 0 0 0).ch[0]? :=
  ⟨_, _, rfl, rfl, by decide⟩

/-- Tempo counter 1: the one STICK of the run counts down and loads nothing. -/
theorem witness_SilentBlockNeverTransmits :
    (∀ x ∈ (mk cfgA [⟨0, 255, 0, 3⟩] 0 1 7 0).ch, x.divisor = 0#16) ∧
    .reset ∉ [Instr.ftick, .stick, .pwrite 0 7 2, .ftick] ∧
    [Instr.ftick, .stick, .pwrite 0 7 2, .ftick].count .stick ≤ (mk cfgA [⟨0, 255, 0, 3⟩] 0 1 7 0).tempoCounter.toNat ∧
    ∃ t, execAll [.ftick, .stick, .pwrite 0 7 2, .ftick] (mk cfgA [⟨0, 255, 0, 3⟩] 0 1 7 0) = .next t :=
  ⟨by decide, by decide, by decide, _, rfl⟩

/-- The smallest and the largest non-zero tempo counter. -/
theorem witness_StickCountsDown : (mk cfgA [] 0 1 7 0).tempoCounter ≠ 0#16 ∧
    (mk cfgA [] 0 65535 7 0).tempoCounter ≠ 0#16 := by decide

theorem witness_StickExpiryReloadsLoadsAndAdvances :
    playing.tempoCounter = 0#16 ∧ 0 < playing.cfg.patternLen ∧ playing.ch[0]? = some ⟨3, 1, 0, 5⟩ := by decide

/-- Forward from N - 1, backward from 0, halted at N - 1; and a Pattern of one entry. -/
theorem witness_IndexAdvanceWrapsAtBothEnds :
    (∃ t, exec .stick (mk cfgA [] 3 0 7 0b01) = .next t) ∧ (∃ t, exec .stick (mk cfgA [] 0 0 7 0b11) = .next t) ∧
    (∃ t, exec .stick (mk cfgA [] 3 0 7 0b00) = .next t) ∧ 3 < cfgA.patternLen ∧
    0 < ({ cfgA with patternInit := [[⟨3, 1⟩]] } : Config).patternLen :=
  ⟨⟨_, rfl⟩, ⟨_, rfl⟩, ⟨_, rfl⟩, by decide, by decide⟩

/-- A running and a halted sequencer; k = N and k = 1, the last index. -/
theorem witness_IndexSequenceIsPeriodic :
    playing.tempoCounter = 0#16 ∧ playing.patternIndex < playing.cfg.patternLen ∧ playing.stepDirection ≠ 0b10#2 ∧
    playing.stepDirection ≠ 0b00#2 ∧ (mk cfgA [] 3 0 7 0b00).stepDirection ≠ 0b10#2 ∧ 3 < playing.cfg.patternLen ∧
    playing.cfg.patternLen ∣ 4 ∧ ¬ playing.cfg.patternLen ∣ 1 := by decide

theorem witness_TempoPeriodLaw : playing.tempoCounter = 0#16 ∧ 0 ≤ playing.tempoPeriod.toNat ∧
    7 ≤ playing.tempoPeriod.toNat := by decide

/-- A new divisor below the counter, one equal to it, and a Rest; each expires to a next state. -/
theorem witness_LoadClampsCounterAndKeepsPhase :
    ((mk cfgA [⟨3, 1, 2, 5⟩] 2 0 7 0b00).patRead 2 0).divisor < 2#16 ∧
    (1#16) ≤ ((mk cfgA [⟨3, 1, 1, 5⟩] 2 0 7 0b00).patRead 2 0).divisor ∧
    ((mk cfgA [⟨3, 1, 2, 5⟩] 1 0 7 0b00).patRead 1 0).divisor = 0#16 ∧
    (mk cfgA [⟨3, 1, 2, 5⟩] 2 0 7 0b00).ch[0]? = some ⟨3, 1, 2, 5⟩ := by decide

theorem witness_LoadClampsCounterAndKeepsPhase_next :
    ∃ t, exec .stick (mk cfgA [⟨3, 1, 2, 5⟩] 2 0 7 0b00) = .next t := ⟨_, rfl⟩

/-- An expiring and a counting slow tick. -/
theorem witness_StickTouchesNothingElse :
    (∃ t, exec .stick playing = .next t) ∧ (∃ t, exec .stick (mk cfgA [⟨3, 1, 2, 5⟩] 1 2 7 0b01) = .next t) ∧
    playing.ch[0]? = some ⟨3, 1, 0, 5⟩ := ⟨⟨_, rfl⟩, ⟨_, rfl⟩, by decide⟩

theorem witness_HaltedEditHeardAtNextExpiry :
    (mk cfgAB [⟨0, 0, 0, 0⟩, ⟨0, 0, 0, 0⟩] 3 0 2 0b00).tempoCounter = 0#16 ∧
    (mk cfgAB [⟨0, 0, 0, 0⟩, ⟨0, 0, 0, 0⟩] 3 0 2 0b00).stepDirection = 0b00#2 ∧ 3 < cfgAB.patternLen ∧
    (mk cfgAB [⟨0, 0, 0, 0⟩, ⟨0, 0, 0, 0⟩] 3 0 2 0b00).ch.length = cfgAB.nch ∧ (1#1).toNat < cfgAB.nch := by decide

/-- Each legal direction; an expiring state; a run of other operations with as many slow ticks as the count. -/
theorem witness_SetdirActsOnlyAtExpiries :
    (0b00#2) ≠ 0b10#2 ∧ (0b01#2) ≠ 0b10#2 ∧ (0b11#2) ≠ 0b10#2 ∧ playing.tempoCounter = 0#16 ∧
    0 < playing.cfg.patternLen ∧
    [Instr.stick, .ftick, .settempo 3, .pwrite 0 7 2, .stick, .fconv 1].count .stick ≤
      (mk cfgA [⟨3, 1, 0, 5⟩] 0 2 7 0).tempoCounter.toNat := by decide

theorem witness_SetdirActsOnlyAtExpiries_run :
    ∃ t, execAll (.setdir 0b01 :: ([.stick, .ftick, .settempo 3, .pwrite 0 7 2, .stick, .fconv 1] ++ [.setdir 0b11]))
      (mk cfgA [⟨3, 1, 0, 5⟩] 0 2 7 0) = .next t := ⟨_, rfl⟩

theorem witness_SettempoNeverActsMidCount :
    [Instr.stick, .ftick, .setdir 0b11, .stick].count .stick ≤ (mk cfgA [⟨3, 1, 0, 5⟩] 0 2 7 0).tempoCounter.toNat ∧
    ({ PortCycle.idle with tempoWr := true, tempoVal := 9, dirVal := 0b10 }).tempoVal = 9 := by decide

/-- Cycles whose other operand buses are not 0, for the strobe clauses of NopChangesNothing, SetdirActsOnlyAtExpiries,
SettempoNeverActsMidCount, SetauxWritesAuxiliaryRegister, PwriteReplacesOnePair and FconvComputesRoundedSaturatedPair. -/
def busy : PortCycle := ⟨false, false, false, false, 1, 7, 2, false, 0b11, false, 9, false, 0x5A, false, 440⟩

theorem witness_strobes :
    true ∉ [busy.rst, busy.fastTick, busy.slowTick, busy.patWr, busy.dirWr, busy.tempoWr, busy.auxWr, busy.convReq] ∧
    ({ busy with dirWr := true }).dirWr = true ∧ ({ busy with tempoWr := true }).tempoVal = 9 ∧
    ({ busy with auxWr := true }).auxVal = 0x5A ∧ ({ busy with patWr := true }).patDiv = 7 ∧
    ({ busy with convReq := true }).convFreq = 440 := by decide

/-- AUX_REG with AUX at the second place of line 0: after a tempo write and a fast tick channel 0 is about to underflow.
PATTERN_INDEX: a run with frames completes. -/
theorem witness_SetauxWritesAuxiliaryRegister :
    (mk cfgW4 [⟨3, 1, 1, 5⟩, ⟨0, 0, 0, 0⟩] 0 0 0 0).cfg.auxSource = .auxReg ∧ playing.cfg.auxSource = .patternIndex ∧
    cfgW4.lines[0]? = some [.sample 0, .aux] ∧ ([.sample 0, .aux] : List ByteSource)[1]? = some .aux ∧
    (∃ u, execAll [.settempo 7, .ftick] { mk cfgW4 [⟨3, 1, 1, 5⟩, ⟨0, 0, 0, 0⟩] 0 0 0 0 with auxReg := 0x5A } = .next u ∧
      ∃ x ∈ u.ch, x.divisor ≠ 0#16 ∧ x.counter = 0#16) ∧
    (∃ u, execAll [.ftick, .stick] playing = .next u) :=
  ⟨by decide, by decide, by decide, by decide, ⟨_, rfl, by decide⟩, _, rfl⟩

/-- The run of the witness above holds no RESET and no SETAUX. -/
theorem witness_SetauxWritesAuxiliaryRegister_run :
    .reset ∉ [Instr.settempo 7, .ftick] ∧ ∀ x, .setaux x ∉ [Instr.settempo 7, .ftick] := ⟨by decide, by simp⟩

/-- Index 63 of 64, the largest of the hardware; and AUX_REG. -/
theorem witness_AuxiliaryByteIsIndexOrRegister :
    (mk Config.reference [] 63 0 0 0).cfg.auxSource = .patternIndex ∧ (mk Config.reference [] 63 0 0 0).patternIndex < 64 ∧
    (mk cfgW4 [] 0 0 0 0).cfg.auxSource = .auxReg := by decide

/-- Channel B of two at the last index; channel B of one. -/
theorem witness_PwriteReplacesOnePair :
    (1#1).toNat < (mk cfgAB [] 3 0 0 0).cfg.nch ∧ (mk cfgAB [] 3 0 0 0).patternIndex < cfgAB.patternLen ∧
    3 < cfgAB.patternLen ∧ 1 < cfgAB.nch ∧ ¬ (1#1).toNat < (mk cfgA [] 3 0 0 0).cfg.nch := by decide

/-- Forward, tempo 0: a PWRITE of channel A at index 2 and a SETDIR stand among the slow ticks that come back to index 1. -/
theorem witness_PatternEditHeardAtTheLoad :
    (mk cfgA [⟨3, 1, 0, 5⟩] 1 0 0 0b01).ch.length = cfgA.nch ∧ 1 < cfgA.patternLen ∧ (0#1).toNat < cfgA.nch ∧
    (nextOf (exec (.pwrite 0 7 2) (mk cfgA [⟨3, 1, 0, 5⟩] 1 0 0 0b01))).map
      (fun w => neverOverwritten 0 1 [.stick, .pwrite 0 8 8, .setdir 0b11, .stick] w) = some true ∧
    (nextOf (execAll (.pwrite 0 7 2 :: [.stick, .pwrite 0 8 8, .setdir 0b11, .stick])
      (mk cfgA [⟨3, 1, 0, 5⟩] 1 0 0 0b01))).map (fun u => (u.patternIndex, u.tempoCounter)) = some (1, 0) := by decide

/-- One operation: a PWRITE of the same channel at another index, the last of the Pattern kept. -/
theorem witness_PatternEditHeardAtTheLoad_step :
    (mk cfgA [⟨3, 1, 0, 5⟩] 1 0 0 0b01).overwritesPair 0 3 (.pwrite 0 8 8) = false ∧ 3 < cfgA.patternLen ∧
    (mk cfgA [⟨3, 1, 0, 5⟩] 1 0 0 0b01).overwritesPair 0 1 (.pwrite 0 8 8) = true ∧
    ∃ b, exec (.pwrite 0 8 8) (mk cfgA [⟨3, 1, 0, 5⟩] 1 0 0 0b01) = .next b := ⟨by decide, by decide, by decide, _, rfl⟩

theorem witness_PatternWriteIsAtomicWithATick :
    (mk cfgA [⟨1, 1, 0, 4⟩] 2 0 0 0b00).tempoCounter = 0#16 ∧
    (mk cfgA [⟨1, 1, 0, 4⟩] 2 0 0 0b00).patternIndex < cfgA.patternLen ∧
    (mk cfgA [⟨1, 1, 0, 4⟩] 2 0 0 0b00).ch.length = cfgA.nch ∧ (0#1).toNat < cfgA.nch := by decide

/-- A Pattern with one edited pair. -/
theorem witness_RewritingTheStoredPairChangesNothing :
    Memory.wf cfgA { playing with pattern := [(1, ⟨7, 2⟩)] }.pattern ∧ (0#1).toNat < cfgA.nch := by decide

theorem witness_FconvComputesRoundedSaturatedPair : (0#24) = 0#24 ∧ (1#24) ≠ 0#24 := by decide

/-- L = 16, R = 16000 at 2000 Hz, where sigma = 2. -/
theorem witness_FconvIsSilentAboveTwiceTheStepRate :
    1 ≤ (cfgConv 16 16000).tableLen ∧ 1 ≤ (cfgConv 16 16000).tickRate ∧ (0x07D000#24) ≠ 0#24 ∧
    (0x07D000#24).toNat * (cfgConv 16 16000).tableLen = 2 * ((cfgConv 16 16000).tickRate * 256) := by
  simp [cfgConv_tableLen, cfgConv_tickRate]

/-- L = 16, R = 16000: just below sigma = 3/2 (and d0 = 65535 at L = 1, R = 65535, 1 Hz), at 1/2, just below and just above 2/3, at 3/2
and at 2. -/
theorem witness_FconvHoldsEachStepHalfToThreeHalvesTicksTooLong :
    2 * ((0x05DBFF#24).toNat * (cfgConv 16 16000).tableLen) < 3 * ((cfgConv 16 16000).tickRate * 256) ∧
    (2 * ((cfgConv 1 65535).tickRate * 256) + (256#24).toNat * (cfgConv 1 65535).tableLen) /
      (2 * ((256#24).toNat * (cfgConv 1 65535).tableLen)) = 65535 ∧
    (cfgConv 16 16000).tickRate * 256 ≤ 2 * ((0x01F400#24).toNat * (cfgConv 16 16000).tableLen) ∧
    3 * ((0x029AAA#24).toNat * (cfgConv 16 16000).tableLen) ≤ 2 * ((cfgConv 16 16000).tickRate * 256) ∧
    2 * ((cfgConv 16 16000).tickRate * 256) < 3 * ((0x029AAB#24).toNat * (cfgConv 16 16000).tableLen) ∧
    3 * ((cfgConv 16 16000).tickRate * 256) ≤ 2 * ((0x05DC00#24).toNat * (cfgConv 16 16000).tableLen) ∧
    (0x07D000#24).toNat * (cfgConv 16 16000).tableLen ≤ 2 * ((cfgConv 16 16000).tickRate * 256) := by
  simp [cfgConv_tableLen, cfgConv_tickRate]

/-- The saturated vector of 95_test_vectors.md 2.4: 1/256 Hz at L = 16, R = 16000. -/
theorem witness_SaturatedFconvIsAlwaysSharp :
    1 ≤ (cfgConv 16 16000).tableLen ∧ 1 ≤ (cfgConv 16 16000).tickRate ∧ (1#24) ≠ 0#24 ∧
    65535 < (2 * ((cfgConv 16 16000).tickRate * 256) + (1#24).toNat * (cfgConv 16 16000).tableLen) /
      (2 * ((1#24).toNat * (cfgConv 16 16000).tableLen)) := by
  simp [cfgConv_tableLen, cfgConv_tickRate]

/-- Two blocks that agree on L and R only. -/
theorem witness_FconvIsPureAndCommutes : cfgA ≠ cfgAB ∧ cfgA.tableLen = cfgAB.tableLen ∧
    cfgA.tickRate = cfgAB.tickRate := by decide

theorem witness_NoteStoresTheConvertedPair : (0#1).toNat < playing.cfg.nch ∧
    playing.patternIndex < playing.cfg.patternLen := by decide

/-- The two lines of W4, K = 2: each kind of source, the first and the last bit time. -/
theorem witness_FrameHasTheStatedWireSequence :
    (mk cfgW4 [] 0 0 0 0).cfg.lines ≠ [] ∧ (∀ l ∈ (mk cfgW4 [] 0 0 0 0).cfg.lines, l.length = 2) ∧
    (mk cfgW4 [] 0 0 0 0).cfg.lines[0]? = some [.sample 0, .aux] ∧
    ([.sample 0, .aux] : List ByteSource)[0 / 8]? = some (.sample 0) ∧
    ([.sample 0, .aux] : List ByteSource)[8 / 8]? = some .aux ∧
    (mk cfgW4 [] 0 0 0 0).cfg.lines[1]? = some [.sample 1, .const 0xFF] ∧
    ([.sample 1, .const 0xFF] : List ByteSource)[15 / 8]? = some (.const 0xFF) ∧ 15 < 8 * 2 := by decide

theorem witness_FrameBytesComeFromTheirSources :
    (mk cfgW4 [] 0 0 0 0).cfg.lines[0]? = some [.sample 0, .aux] ∧
    ([.sample 0, .aux] : List ByteSource)[0]? = some (.sample 0) ∧ ([.sample 0, .aux] : List ByteSource)[1]? = some .aux ∧
    (mk cfgW4 [] 0 0 0 0).cfg.lines[1]? = some [.sample 1, .const 0xFF] ∧
    ([.sample 1, .const 0xFF] : List ByteSource)[1]? = some (.const 0xFF) := by decide

theorem witness_OneLatchPulsePerFrameAfterAllClocks :
    playing.cfg.lines ≠ [] ∧ (∀ l ∈ playing.cfg.lines, l.length = (playing.cfg.lines.headD []).length) ∧
    anyChanged playing.ch = true ∧ anyChanged resting.ch = false ∧ (∃ t, exec .ftick playing = .next t) ∧
    (∃ t, exec .ftick resting = .next t) ∧ (∃ t, exec .stick playing = .next t) :=
  ⟨by decide, by decide, by decide, by decide, ⟨_, rfl⟩, ⟨_, rfl⟩, ⟨_, rfl⟩⟩

theorem playing_inv : playing.Inv := by decide

theorem resting_inv : resting.Inv := by decide

theorem witness_ReceiverCommitsExactlyTheFrame : playing.Inv ∧ resting.Inv ∧ 0 < playing.cfg.nlines ∧
    (∃ x ∈ playing.ch, x.divisor ≠ 0#16 ∧ x.counter = 0#16) ∧
    (∀ x ∈ resting.ch, x.divisor = 0#16 ∨ x.counter ≠ 0#16) := ⟨playing_inv, resting_inv, by decide⟩

/-- A state that is not the reset state, with each kind of request next. -/
theorem witness_StepKeepsTheInvariant :
    (withRequest playing (.event 0x10000000)).Inv ∧ (∃ t, step (withRequest playing (.event 0x10000000)) = .next t) ∧
    (∃ t, step (withRequest playing (.cycle { PortCycle.idle with fastTick := true, slowTick := true })) = .next t) :=
  ⟨by decide, ⟨_, rfl⟩, ⟨_, rfl⟩⟩

theorem witness_ResetMeetsTheInvariant : cfgA.WellFormed ∧ cfgAB.WellFormed := by decide

/-- The last pair of the Pattern of cfgAB. -/
theorem witness_ResetPutsEveryRegisterAtItsValue :
    1 < (mk cfgAB [] 0 0 0 0).cfg.nch ∧ cfgAB.patternInit[3]? = some [⟨9, 2⟩, ⟨1, 4⟩] ∧
    ([⟨9, 2⟩, ⟨1, 4⟩] : List PatternStep)[1]? = some ⟨1, 4⟩ ∧ ({ PortCycle.idle with rst := true }).rst = true := by decide

theorem witness_ResetStateIsQuiet : cfgA.WellFormed ∧ Config.reference.WellFormed := by decide

/-- A run that sets tempo and direction before the first slow tick; a run with slow ticks and a SETDIR 0. -/
theorem witness_FirstStickAfterResetExpires :
    cfgAB.WellFormed ∧ (∀ i ∈ [Instr.settempo 7, .setdir 0b11], keepsChannelSettings i = true) ∧
    (∃ s, execAll [.settempo 7, .setdir 0b11] (State.resetWith cfgAB) = .next s) ∧
    (∀ d, .setdir d ∈ [Instr.stick, .setdir 0b00, .ftick, .stick] → d = 0b00#2) ∧
    (∃ s, execAll [.stick, .setdir 0b00, .ftick, .stick] (State.resetWith cfgAB) = .next s ∧ s.tempoCounter = 0#16) :=
  ⟨by decide, by decide, ⟨_, rfl⟩, by decide, ⟨_, rfl, rfl⟩⟩

/-- A legal word, and one of each refused kind (95_test_vectors.md 2.5). -/
theorem witness_IllegalWordsAreRefusedAndNoOthers :
    (withRequest playing (.event 0x30000301)).inputs = .event 0x30000301 :: [] ∧ 1 ≤ playing.cfg.nch ∧
    refusalOf (step (withRequest playing (.event 0xE1234567))) = some (.illegalWord 0xE1234567 .reservedOp) ∧
    refusalOf (step (withRequest playing (.event 0x50010000))) = some (.illegalWord 0x50010000 .reservedBits) ∧
    refusalOf (step (withRequest playing (.event 0x40000002))) = some (.illegalWord 0x40000002 .reservedDirection) ∧
    refusalOf (step (withRequest playing (.event 0x31000301))) = some .absentChannel := by decide

theorem witness_DecodeOfEncodeIsTheOperation : Instr.WellFormed (.pwrite 1 65535 255) = true ∧
    Instr.WellFormed (.setdir 0b11) = true ∧ Instr.WellFormed (.fconv 0xFFFFFF) = true := by decide

theorem witness_EncodeOfDecodeIsTheWord : decode 0x31FFFFFF = .ok (.pwrite 1 65535 255) := by decide

theorem witness_DecoderFollowsTheOperationMap : decode 0x40000003 = .ok (.setdir 0b11) ∧
    ⟨"SETDIR", 0x40000000#32, 0xFFFFFFFC#32⟩ ∈ opRows ∧
    OpRow.Matches ⟨"SETDIR", 0x40000000#32, 0xFFFFFFFC#32⟩ 0x40000003 = true := by decide

theorem witness_StepRunsTheNextRequest :
    (withRequest playing (.event 0x20000000)).inputs = .event 0x20000000 :: [] ∧ decode 0x20000000 = .ok .stick ∧
    playing.inputs = [] ∧ decodeTableWord 32 0x20000000 = some .stick := by decide

theorem witness_CycleRequestsRunInTheStatedOrder :
    (withRequest playing (.cycle .idle)).inputs = .cycle .idle :: [] ∧ PortCycle.idle.rst = false ∧
    ({ PortCycle.idle with rst := true, auxWr := true }).rst = true := by decide

/-- An operation of each agent but the external one. -/
theorem witness_EachFieldHasOneWriter :
    (∃ t, exec .ftick playing = .next t) ∧ (∃ t, exec .stick playing = .next t) ∧
    (∃ t, exec (.pwrite 0 7 2) playing = .next t) ∧ Instr.agent .ftick = .fastTick ∧ Instr.agent .stick = .slowTick ∧
    Instr.agent (.pwrite 0 7 2) = .host ∧ playing.ch[0]? = some ⟨3, 1, 0, 5⟩ :=
  ⟨⟨_, rfl⟩, ⟨_, rfl⟩, ⟨_, rfl⟩, by decide⟩

theorem witness_ParametersNeverChange : ∃ t, step (withRequest playing (.event 0xF0000000)) = .next t := ⟨_, rfl⟩

end Sys2Proof.Tests
end

section
/-! PROOFS. The parameters of the block (00_scope.md R10): every step is a run of operations, and no run writes a
parameter. -/

namespace Sys2Proof.Machine

variable {s t : State}

/-- A request that is answered, an event word or a cycle, is a run of operations (30_encoding.md R81). -/
theorem exists_execAll_of_performRequest {r : Request} (h : performRequest r s = .next t) :
    ∃ is, execAll is s = .next t := by
  cases r with
  | event w =>
    simp only [performRequest] at h
    split at h
    · next i _ => exact ⟨[i], by rwa [execAll_singleton]⟩
    · cases h
  | cycle p => exact ⟨cycleRequests s.cfg.tickOrder p, h⟩

/-- A step that answers is a run of operations from the state without its request. -/
theorem exists_execAll_of_step (h : step s = .next t) : ∃ is, execAll is s.beginStep = .next t :=
  exists_execAll_of_performRequest h

/-- No run of operations writes the parameters or takes a request, RESET included. -/
theorem execAll_cfg_inputs {is : List Instr} (h : execAll is s = .next t) : t.cfg = s.cfg ∧ t.inputs = s.inputs := by
  induction is generalizing s with
  | nil => cases h; exact ⟨rfl, rfl⟩
  | cons i is ih =>
    obtain ⟨u, hu, h⟩ := execAll_cons_next h
    obtain ⟨hcfg, hin⟩ := exec_cfg_inputs hu
    obtain ⟨hcfg', hin'⟩ := ih h
    exact ⟨hcfg'.trans hcfg, hin'.trans hin⟩

/-- Settles O51: a step is a run of operations from a state with the same parameters, and no operation writes them. -/
theorem parametersNeverChange : Obligations.ParametersNeverChange := by
  intro s t h
  obtain ⟨is, hrun⟩ := exists_execAll_of_step h
  obtain ⟨hcfg, -⟩ := execAll_cfg_inputs hrun
  exact hcfg.trans s.beginStep_cfg

end Sys2Proof.Machine
end

section
/-! PROOFS. The invariant (10_state.md R22, R24, R25, R31): each named update of the state keeps it, so every operation,
every run of operations and every step does. -/

namespace Sys2Proof

theorem Config.WellFormed.patternLen_pos {c : Config} (h : c.WellFormed) : 0 < c.patternLen := by
  obtain ⟨-, -, hlen, -⟩ := h
  exact hlen

theorem Config.WellFormed.tableLen_pos {c : Config} (h : c.WellFormed) : 0 < c.tableLen := by
  obtain ⟨-, hlen, -⟩ := h
  exact hlen

end Sys2Proof

namespace Sys2Proof.Machine

variable {s t : State}

/-! The lines and the trace over a frame -/

@[simp] theorem State.frameBytes_length (s : State) : s.frameBytes.length = s.cfg.nlines := by
  simp [State.frameBytes, Config.nlines]

/-- Every line of a frame carries the same number K of bytes (30_encoding.md R76). -/
theorem State.length_of_mem_frameBytes (hcfg : s.cfg.WellFormed) {l : List Byte} (hl : l ∈ s.frameBytes) :
    l.length = (s.frameBytes.headD []).length := by
  obtain ⟨-, -, -, -, -, -, hsame, -⟩ := hcfg
  obtain ⟨srcs, hsrcs, rfl⟩ := List.mem_map.1 hl
  obtain ⟨hK, -⟩ := hsame srcs hsrcs
  have hhead : (s.frameBytes.headD []).length = (s.cfg.lines.headD []).length := by
    unfold State.frameBytes
    cases s.cfg.lines <;> simp
  rw [List.length_map, hK, hhead]

/-- Every line the block has is at the level last driven onto it. -/
theorem State.LinesOk.level_eq (h : s.LinesOk) (l : Line) (hl : s.HasLine l) : s.level l = lastDriven s.trace l := by
  obtain ⟨hlen, hdata, hclk, -, hlatch, -⟩ := h
  cases l with
  | data j => exact hdata j (hlen ▸ hl)
  | clk => exact hclk
  | latch => exact hlatch

/-- A frame leaves every line at the level last driven, clock and latch 0 (43_serial_transmitter.md R163). -/
theorem State.LinesOk.send (h : s.LinesOk) : s.send.LinesOk := by
  have htracks : ∀ l, s.HasLine l → s.send.level l = lastDriven s.send.trace l :=
    State.driveAll_tracks s.frameEvents h.level_eq
  obtain ⟨hlen, -, -, hclk, -⟩ := h
  obtain ⟨hclk', hlatch'⟩ := s.send_atRest hclk
  refine ⟨by simpa using hlen, fun j hj => htracks (.data j) ?_, htracks .clk trivial, hclk', htracks .latch trivial,
    hlatch'⟩
  rw [State.send_cfg] at hj
  exact hj.trans_eq hlen.symm

/-- A receiver with no uncommitted bit has none after a frame (43_serial_transmitter.md R164, R167). -/
theorem State.FramesWhole.send (hcfg : s.cfg.WellFormed) (hlines : s.LinesOk) (h : s.FramesWhole) :
    s.send.FramesWhole := by
  intro j hj
  rw [State.send_cfg] at hj
  obtain ⟨-, -, hclk, hclk0, hlatch, hlatch0⟩ := hlines
  obtain ⟨-, hrclk, hrlatch⟩ := receive_levels j s.trace
  obtain ⟨d, hd⟩ := foldl_see_transmit j s.frameBytes s.cfg.bitOrder (receive j s.trace) (by simpa using hj)
    (fun _ hl => State.length_of_mem_frameBytes hcfg hl) (by rw [hrclk, ← hclk, hclk0])
    (by rw [hrlatch, ← hlatch, hlatch0]) (h j hj)
  rw [State.send_trace, receive_append, State.frameEvents, hd]
  exact h j hj

/-! The named updates -/

/-- The reset state is of the invariant (10_state.md R34). -/
theorem State.resetWith_inv {c : Config} (hcfg : c.WellFormed) : (State.resetWith c).Inv := by
  refine ⟨hcfg, ⟨List.length_replicate, fun x hx => ?_⟩, ⟨hcfg.patternLen_pos, by simp [State.resetWith]⟩,
    Memory.wf_nil c, ⟨List.length_replicate, fun j hj => ?_, rfl, rfl, rfl, rfl⟩, fun j _ => rfl⟩
  · obtain rfl := List.eq_of_mem_replicate hx
    exact ⟨hcfg.tableLen_pos, BitVec.le_refl _⟩
  · have hj : j < c.nlines := hj
    simp [State.level, State.resetWith, lastDriven_nil, hj]

theorem State.Inv.stepChannels (h : s.Inv) : s.stepChannels.Inv := by
  obtain ⟨hcfg, ⟨hlen, hch⟩, hseq, hpat, hlines, hframes⟩ := h
  refine ⟨hcfg, ⟨by simpa using hlen, fun y hy => ?_⟩, hseq, hpat, hlines, hframes⟩
  obtain ⟨x, hx, rfl⟩ := List.mem_map.1 hy
  obtain ⟨hphase, hcounter⟩ := hch x hx
  exact Channel.chStep_inRange hphase hcounter

theorem State.Inv.send (h : s.Inv) : s.send.Inv := by
  obtain ⟨hcfg, hch, hseq, hpat, hlines, hframes⟩ := h
  exact ⟨by simpa using hcfg, by simpa [State.ChannelsOk] using hch, by simpa [State.SequencerOk] using hseq,
    by simpa using hpat, hlines.send, hframes.send hcfg hlines⟩

/-- An expiry clamps each counter to its new divisor and takes the index modulo N (42_pattern_sequencer.md R142, R147). -/
theorem State.Inv.expiry (h : s.Inv) : s.expiry.Inv := by
  obtain ⟨hcfg, ⟨hlen, hch⟩, ⟨-, hdir⟩, hpat, hlines, hframes⟩ := h
  refine ⟨hcfg, ⟨by simpa using hlen, fun y hy => ?_⟩, ⟨advanceIndex_lt _ _ hcfg.patternLen_pos, hdir⟩, hpat, hlines,
    hframes⟩
  obtain ⟨c, hc, rfl⟩ := List.mem_mapIdx.1 hy
  obtain ⟨hphase, -⟩ := hch s.ch[c] (List.getElem_mem hc)
  exact ⟨hphase, clampCounter_le _ _⟩

/-- A write to a channel the block has lands on one of the N x NCH cells (20_memory.md R50). -/
theorem State.Inv.patWrite {c : Nat} (h : s.Inv) (v : PatternStep) (hc : c < s.cfg.nch) :
    (s.patWrite s.patternIndex c v).Inv := by
  obtain ⟨hcfg, hch, ⟨hidx, hdir⟩, hpat, hlines, hframes⟩ := h
  have hcell : s.cellAt s.patternIndex c < s.cfg.nch * s.cfg.patternLen := by
    rw [State.cellAt_eq c hidx]
    exact cellOf_lt hidx hc
  exact ⟨hcfg, hch, ⟨hidx, hdir⟩, Memory.write_wf v hpat hcell, hlines, hframes⟩

theorem State.Inv.setDirection {dir : Direction} (h : s.Inv) (hdir : dir ≠ 0b10#2) :
    State.Inv { s with stepDirection := dir } := by
  obtain ⟨hcfg, hch, ⟨hidx, -⟩, hpat, hlines, hframes⟩ := h
  exact ⟨hcfg, hch, ⟨hidx, hdir⟩, hpat, hlines, hframes⟩

/-! Operations, runs and steps -/

/-- Every operation keeps the invariant. The cases closed by `hs` itself write no field it speaks of. -/
theorem exec_keeps_inv {i : Instr} (h : exec i s = .next t) (hs : s.Inv) : t.Inv := by
  obtain ⟨-, rfl⟩ | ⟨-, -, rfl⟩ | ⟨-, -, rfl⟩ | ⟨-, -, rfl⟩ | ⟨-, -, rfl⟩ | ⟨_, _, _, -, hch, rfl⟩ | ⟨_, -, hdir, rfl⟩ |
    ⟨_, -, rfl⟩ | ⟨_, -, rfl⟩ | ⟨_, -, rfl⟩ | ⟨-, rfl⟩ := exec_next_cases h
  · exact hs
  · exact hs.stepChannels.send
  · exact hs.stepChannels
  · exact hs
  · exact hs.expiry
  · exact hs.patWrite _ hch
  · exact hs.setDirection hdir
  · exact hs
  · exact hs
  · exact hs
  · obtain ⟨hcfg, -⟩ := hs
    exact State.resetWith_inv hcfg

/-- What every operation keeps, every run of operations keeps. -/
theorem execAll_preserves {P : State → Prop} (hP : ∀ {i s t}, exec i s = .next t → P s → P t) {is : List Instr}
    (h : execAll is s = .next t) (hs : P s) : P t := by
  induction is generalizing s with
  | nil => cases h; exact hs
  | cons i is ih =>
    obtain ⟨u, hu, h⟩ := execAll_cons_next h
    exact ih h (hP hu hs)

/-- Settles O37: a step is a run of operations from a state that differs in the transient ports and the requests only,
and each operation keeps the invariant. -/
theorem stepKeepsTheInvariant : Obligations.StepKeepsTheInvariant := by
  intro s t hs h
  obtain ⟨is, hrun⟩ := exists_execAll_of_step h
  have hbegin : s.beginStep.Inv := hs
  exact execAll_preserves exec_keeps_inv hrun hbegin

end Sys2Proof.Machine
end

section
/-! PROOFS. The requests of one clock cycle in the order of 10_state.md R37. -/

namespace Sys2Proof.Machine

/-- The operations whose strobe is high, in the order listed. -/
def strobed (qs : List (Bool × Instr)) : List Instr := qs.filterMap (fun q => if q.1 then some q.2 else none)

@[simp] theorem strobed_nil : strobed [] = [] := rfl

@[simp] theorem strobed_cons (b : Bool) (i : Instr) (qs : List (Bool × Instr)) :
    strobed ((b, i) :: qs) = (if b then [i] else []) ++ strobed qs := by
  cases b <;> rfl

theorem cycleRequests_of_rst (o : TickOrder) {p : PortCycle} (h : p.rst = true) : cycleRequests o p = [.reset] :=
  if_pos h

theorem cycleRequests_of_not_rst (o : TickOrder) {p : PortCycle} (h : p.rst = false) :
    cycleRequests o p = orNop (hostRequests p ++ tickRequests o p ++ convRequests p) :=
  if_neg (by simp [h])

/-- The strobes in the order of R37; TICK_ORDER puts the FTICK before or after the STICK (60_exceptions.md R194). -/
theorem requests_eq_strobed (o : TickOrder) (p : PortCycle) :
    hostRequests p ++ tickRequests o p ++ convRequests p =
      strobed [(p.patWr, .pwrite p.patCh p.patDiv p.patMul), (p.dirWr, .setdir p.dirVal),
        (p.tempoWr, .settempo p.tempoVal), (p.auxWr, .setaux p.auxVal), (p.fastTick && o == .fastFirst, .ftick),
        (p.slowTick, .stick), (p.fastTick && o == .slowFirst, .ftick), (p.convReq, .fconv p.convFreq)] := by
  cases o <;> simp [hostRequests, tickRequests, convRequests]

/-- Settles O49: a cycle with `rst` high is the run of RESET alone; any other is the run of its strobed requests, and the
NOP of a cycle that requests nothing is the empty run. -/
theorem cycleRequestsRunInTheStatedOrder : Obligations.CycleRequestsRunInTheStatedOrder := by
  intro s p rest hin
  constructor
  · intro hrst
    rw [step_cycle hin, cycleRequests_of_rst _ hrst, execAll_singleton]
    rfl
  · intro hrst
    rw [step_cycle hin, cycleRequests_of_not_rst _ hrst, execAll_orNop, requests_eq_strobed]
    rfl

end Sys2Proof.Machine
end

section
/-! PROOFS. The Pattern store under the operations (20_memory.md R56, R64): which operation can write it, how long a written
pair stays, and what an expiry loads of it. -/

namespace Sys2Proof.Machine

variable {s t : State} {i : Instr}

/-! One operation -/

/-- Apart from RESET only an answered PWRITE writes the Pattern (20_memory.md R55). -/
theorem exec_pattern_cases (h : exec i s = .next t) (hr : i ≠ .reset) :
    (∃ ch d m, i = .pwrite ch d m ∧ ch.toNat < s.cfg.nch ∧ t = s.patWrite s.patternIndex ch.toNat ⟨d, m⟩) ∨
    t.pattern = s.pattern := by
  obtain ⟨-, rfl⟩ | ⟨-, -, rfl⟩ | ⟨-, -, rfl⟩ | ⟨-, -, rfl⟩ | ⟨-, -, rfl⟩ | hwrite | ⟨_, -, -, rfl⟩ | ⟨_, -, rfl⟩ |
    ⟨_, -, rfl⟩ | ⟨_, -, rfl⟩ | ⟨hreset, -⟩ := exec_next_cases h
  iterate 5 exact .inr (by simp)
  · exact .inl hwrite
  iterate 4 exact .inr rfl
  · exact absurd hreset hr

theorem State.patRead_eq_of_exec (h : exec i s = .next t) (hp : t.pattern = s.pattern) (k c : Nat) :
    t.patRead k c = s.patRead k c := by
  obtain ⟨hcfg, -⟩ := exec_cfg_inputs h
  exact s.patRead_congr hcfg hp k c

/-- An operation that does not overwrite a pair keeps it: a PWRITE that answers goes to another place. -/
theorem exec_keeps_pair {ch : ChannelBit} {k : Nat} (h : exec i s = .next t) (hch : ch.toNat < s.cfg.nch)
    (hidx : s.patternIndex < s.cfg.patternLen) (hk : k < s.cfg.patternLen) (hi : s.overwritesPair ch k i = false) :
    t.patRead k ch.toNat = s.patRead k ch.toNat := by
  have hr : i ≠ .reset := by
    rintro rfl
    cases hi
  obtain ⟨ch', d, m, rfl, hch', rfl⟩ | hp := exec_pattern_cases h hr
  · rw [State.patRead_patWrite _ hidx hk hch' hch, if_neg]
    rintro ⟨rfl, hc⟩
    simp [State.overwritesPair, BitVec.eq_of_toNat_eq hc] at hi
  · exact State.patRead_eq_of_exec h hp k _

/-! A run -/

/-- A run that never overwrites a pair, by its first operation. -/
theorem neverOverwritten_cons {ch : ChannelBit} {k : Nat} {is : List Instr} (h : exec i s = .next t) :
    neverOverwritten ch k (i :: is) s = true ↔ s.overwritesPair ch k i = false ∧ neverOverwritten ch k is t = true := by
  simp [neverOverwritten, h]

/-- A run that never overwrites a pair keeps it, and as it holds no RESET it keeps the number of channels. -/
theorem execAll_keeps_pair {ch : ChannelBit} {k : Nat} {is : List Instr} (h : execAll is s = .next t)
    (hch : ch.toNat < s.cfg.nch) (hidx : s.patternIndex < s.cfg.patternLen) (hk : k < s.cfg.patternLen)
    (his : neverOverwritten ch k is s = true) :
    t.patRead k ch.toNat = s.patRead k ch.toNat ∧ t.ch.length = s.ch.length := by
  induction is generalizing s with
  | nil => cases h; exact ⟨rfl, rfl⟩
  | cons i is ih =>
    obtain ⟨u, hu, h⟩ := execAll_cons_next h
    obtain ⟨hi, his⟩ := (neverOverwritten_cons hu).1 his
    obtain ⟨hcfg, -⟩ := exec_cfg_inputs hu
    have hr : i ≠ .reset := by
      rintro rfl
      cases hi
    obtain ⟨hpair, hlen⟩ := ih h (by rwa [hcfg]) (exec_patternIndex_lt hu hidx) (by rwa [hcfg]) his
    exact ⟨hpair.trans (exec_keeps_pair hu hch hidx hk hi), hlen.trans (exec_ch_length hu hr)⟩

/-! The load -/

@[simp] theorem Channel.load_divisor (x : Channel) (p : PatternStep) : (x.load p).divisor = p.divisor := rfl
@[simp] theorem Channel.load_multiplier (x : Channel) (p : PatternStep) : (x.load p).multiplier = p.multiplier := rfl
@[simp] theorem Channel.load_phasePosition (x : Channel) (p : PatternStep) :
    (x.load p).phasePosition = x.phasePosition := rfl

/-- A load never raises a counter (42_pattern_sequencer.md R147). -/
theorem Channel.load_counter_le (x : Channel) (p : PatternStep) : (x.load p).counter ≤ x.counter := by
  rw [BitVec.le_def]
  exact (clampCounter_toNat x.counter p.divisor).trans_le (Nat.min_le_left _ _)

/-- After an expiry a channel holds both fields of its pair at the index before the advance. -/
theorem State.expiry_pair {c : Nat} {y : Channel} (hy : s.expiry.ch[c]? = some y) :
    (⟨y.divisor, y.multiplier⟩ : PatternStep) = s.patRead s.patternIndex c := by
  rw [State.expiry_ch, List.getElem?_mapIdx] at hy
  obtain ⟨x, -, rfl⟩ := Option.map_eq_some_iff.1 hy
  rfl

/-- The pair at the current index after a PWRITE of channel `ch`, for every channel. -/
theorem State.patRead_patWrite_current {ch : ChannelBit} {c : Nat} (v : PatternStep) (hc : c < s.cfg.nch)
    (hch : ch.toNat < s.cfg.nch) (hidx : s.patternIndex < s.cfg.patternLen) :
    (s.patWrite s.patternIndex ch.toNat v).patRead s.patternIndex c =
      if c = ch.toNat then v else s.patRead s.patternIndex c := by
  simp [State.patRead_patWrite v hidx hidx hch hc]

/-! The statements -/

/-- Settles O25: a run that never overwrites the pair keeps it as PWRITE stored it, and the expiry loads it. -/
theorem patternEditHeardAtTheLoad : Obligations.PatternEditHeardAtTheLoad := by
  refine ⟨fun s ch d m hch hlen hidx => ⟨_, exec_pwrite hch, rfl, ?_⟩,
    fun a b i ch k hch hidx hk hi h => exec_keeps_pair h hch hidx hk hi⟩
  intro is u hnever hrun huidx hcount
  obtain ⟨hpair, hulen⟩ := execAll_keeps_pair hrun hch hidx hidx hnever
  have hread : u.patRead u.patternIndex ch.toNat = ⟨d, m⟩ := by
    rw [huidx, hpair, State.patRead_patWrite_current _ hch hch hidx, if_pos rfl]
  have hc : ch.toNat < u.ch.length := by rwa [hulen, State.patWrite_ch, hlen]
  exact ⟨u.expiry, _, exec_stick_expiry hcount, State.expiry_getElem? (List.getElem?_eq_getElem hc), by simp [hread],
    by simp [hread]⟩

/-- Settles O26: either order is one expiry that loads whole pairs, of the store after the PWRITE or of the store before
it; a PWRITE after the expiry writes no channel register. -/
theorem patternWriteIsAtomicWithATick : Obligations.PatternWriteIsAtomicWithATick := by
  intro s ch d m hcount hidx hlen hch
  constructor
  · have hwrite : exec (.pwrite ch d m) s = .next (s.patWrite s.patternIndex ch.toNat ⟨d, m⟩) := exec_pwrite hch
    have hstick := exec_stick_expiry (s := s.patWrite s.patternIndex ch.toNat ⟨d, m⟩) hcount
    refine ⟨_, (execAll_cons _ hwrite).trans ((execAll_singleton _ _).trans hstick), fun c y hy => ?_⟩
    obtain ⟨hc, -⟩ := List.getElem?_eq_some_iff.1 hy
    have hc : c < s.cfg.nch := by simpa [hlen] using hc
    exact (State.expiry_pair hy).trans (State.patRead_patWrite_current _ hc hch hidx)
  · have hwrite := exec_pwrite (s := s.expiry) (ch := ch) (d := d) (m := m) hch
    exact ⟨_, (execAll_cons _ (exec_stick_expiry hcount)).trans ((execAll_singleton _ _).trans hwrite),
      fun c y hy => State.expiry_pair hy⟩

end Sys2Proof.Machine
end

section
/-! PROOFS. The ownership table (20_memory.md R67): what the operations of the other agents leave alone. -/

namespace Sys2Proof

/-! The operations of one agent -/

theorem Instr.agent_eq_fastTick_iff (i : Instr) : i.agent = .fastTick ↔ i = .ftick := by
  cases i <;> simp [Instr.agent]

theorem Instr.agent_eq_slowTick_iff (i : Instr) : i.agent = .slowTick ↔ i = .stick := by
  cases i <;> simp [Instr.agent]

theorem Instr.agent_eq_host_iff (i : Instr) : i.agent = .host ↔ i ≠ .ftick ∧ i ≠ .stick ∧ i ≠ .reset := by
  cases i <;> simp [Instr.agent]

end Sys2Proof

namespace Sys2Proof.Machine

variable {s t : State} {i : Instr}

theorem keepsChannelSettings_iff (i : Instr) : keepsChannelSettings i = true ↔ i ≠ .stick ∧ i ≠ .reset := by
  cases i <;> simp [keepsChannelSettings]

/-- What an operation other than RESET does to one channel: nothing, a CHSTEP of an FTICK, or a load of a STICK. -/
theorem exec_channel_cases {c : Nat} {x : Channel} (h : exec i s = .next t) (hr : i ≠ .reset)
    (hx : s.ch[c]? = some x) :
    ∃ y, t.ch[c]? = some y ∧
      (y = x ∨ (i = .ftick ∧ y = x.chStep s.cfg.tableLen) ∨
        (i = .stick ∧ y = x.load (s.patRead s.patternIndex c))) := by
  by_cases hf : i = .ftick
  · subst hf
    exact ⟨_, by rw [exec_ftick_ch h, List.getElem?_map, hx, Option.map_some], .inr (.inl ⟨rfl, rfl⟩)⟩
  · by_cases hs : i = .stick ∧ s.tempoCounter = 0#16
    · obtain ⟨rfl, h0⟩ := hs
      rw [exec_stick_expiry h0] at h
      cases h
      exact ⟨_, State.expiry_getElem? hx, .inr (.inr ⟨rfl, rfl⟩)⟩
    · obtain ⟨hch, -⟩ := exec_keeps_channels h hr (fun hi h0 => hs ⟨hi, h0⟩) hf
      exact ⟨x, by rw [hch, hx], .inl rfl⟩

/-- Apart from FTICK and RESET no operation writes a line, the trace or a changed flag (10_state.md R28). -/
theorem exec_keeps_wire (h : exec i s = .next t) (hf : i ≠ .ftick) (hr : i ≠ .reset) :
    t.serData = s.serData ∧ t.serClk = s.serClk ∧ t.serLatch = s.serLatch ∧ t.trace = s.trace ∧
      t.out.changed = s.out.changed := by
  obtain ⟨-, rfl⟩ | ⟨hftick, -⟩ | ⟨hftick, -⟩ | ⟨-, -, rfl⟩ | ⟨-, -, rfl⟩ | ⟨_, _, _, -, -, rfl⟩ | ⟨_, -, -, rfl⟩ |
    ⟨_, -, rfl⟩ | ⟨_, -, rfl⟩ | ⟨_, -, rfl⟩ | ⟨hreset, -⟩ := exec_next_cases h
  · exact ⟨rfl, rfl, rfl, rfl, rfl⟩
  iterate 2 exact absurd hftick hf
  iterate 7 exact ⟨rfl, rfl, rfl, rfl, rfl⟩
  · exact absurd hreset hr

/-- A tick writes no control register and no pair of the Pattern. -/
theorem exec_tick_keeps_host_fields (h : exec i s = .next t) (hi : i = .ftick ∨ i = .stick) :
    t.stepDirection = s.stepDirection ∧ t.tempoPeriod = s.tempoPeriod ∧ t.auxReg = s.auxReg ∧ t.pattern = s.pattern := by
  obtain rfl | rfl := hi
  · rw [exec_ftick] at h
    cases h
    split <;> simp
  · by_cases h0 : s.tempoCounter = 0#16
    · rw [exec_stick_expiry h0] at h
      cases h
      simp
    · rw [exec_stick_count h0] at h
      cases h
      simp

/-- Settles O50: agent by agent, with what an operation can do to one channel said by `exec_channel_cases`. -/
theorem eachFieldHasOneWriter : Obligations.EachFieldHasOneWriter := by
  intro s t i hr h
  simp only [ne_eq, Instr.agent_eq_fastTick_iff, Instr.agent_eq_slowTick_iff]
  refine ⟨exec_ch_length h hr, fun hf => ?fast, fun hs => ?slow, fun hhost => ?host⟩
  case fast =>
    obtain ⟨hdata, hclk, hlatch, htrace, hflags⟩ := exec_keeps_wire h hf hr
    refine ⟨hdata, hclk, hlatch, htrace, hflags, fun c x hx => ?_⟩
    obtain ⟨y, hy, rfl | ⟨hi, -⟩ | ⟨hi, rfl⟩⟩ := exec_channel_cases h hr hx
    · exact ⟨y, hy, rfl, BitVec.le_refl _, fun _ => rfl⟩
    · exact absurd hi hf
    · exact ⟨_, hy, rfl, Channel.load_counter_le _ _, fun hs => absurd hi hs⟩
  case slow =>
    obtain ⟨hcount, hidx, -⟩ := exec_keeps_sequencer h ((keepsChannelSettings_iff i).2 ⟨hs, hr⟩)
    refine ⟨hidx, hcount, fun c x hx => ?_⟩
    obtain ⟨y, hy, rfl | ⟨-, rfl⟩ | ⟨hi, -⟩⟩ := exec_channel_cases h hr hx
    · exact ⟨y, hy, rfl, rfl⟩
    · exact ⟨_, hy, by simp, by simp⟩
    · exact absurd hi hs
  case host =>
    have htick : i = .ftick ∨ i = .stick := by
      rw [Instr.agent_eq_host_iff] at hhost
      tauto
    obtain ⟨hdir, hperiod, haux, hpat⟩ := exec_tick_keeps_host_fields h htick
    exact ⟨hdir, hperiod, haux, State.patRead_eq_of_exec h hpat⟩

end Sys2Proof.Machine
end

section
/-! PROOFS. The next request (20_memory.md R61, 30_encoding.md R81). -/

namespace Sys2Proof.Machine

theorem decode_of_decodeTableWord {nbits w : Nat} {i : Instr} (h : decodeTableWord nbits w = some i) :
    decode (tableWord nbits w) = .ok i := by
  unfold decodeTableWord at h
  cases hd : decode (tableWord nbits w) <;> simp_all [Except.toOption]

/-- Settles O48: the step by the kind of the next request; a run of operations takes no request, so the step takes the
one that `beginStep` removes. -/
theorem stepRunsTheNextRequest : Obligations.StepRunsTheNextRequest := by
  refine ⟨fun s w rest i hin hd => step_event hin hd, fun s hin => step_idle hin, fun s w i hw => ?table,
    fun s t h => ?taken⟩
  case table =>
    have hin : (s.withFetchWord 32 w).inputs = .event (tableWord 32 w) :: s.inputs := s.pushEvent_inputs _
    rw [step_event hin (decode_of_decodeTableWord hw)]
    rfl
  case taken =>
    obtain ⟨is, hrun⟩ := exists_execAll_of_step h
    obtain ⟨-, hin⟩ := execAll_cfg_inputs hrun
    exact hin.trans s.beginStep_inputs

end Sys2Proof.Machine
end

section
/-! PROOFS. The event words (30_encoding.md R82, R83): encoder and decoder read a word the same way, as an operation code,
reserved bits that are zero, and the operands in the low bits. -/

namespace Sys2Proof

variable {w : EventWord} {i : Instr}

/-! The parts of a word -/

/-- An operation code and reserved bits that are zero are the bits above the operands. -/
theorem high_eq_iff (w : EventWord) {len : Nat} (hlen : len ≤ 28) (op : Nat) :
    (opField w).toNat = op ∧ w.extractLsb' len (28 - len) = 0 ↔ w.toNat / 2 ^ len = op * 2 ^ (28 - len) := by
  have hsplit : w.toNat / 2 ^ 28 = w.toNat / 2 ^ len / 2 ^ (28 - len) := by
    rw [Nat.div_div_eq_div_mul, ← Nat.pow_add, Nat.add_sub_cancel' hlen]
  have hop : (opField w).toNat = w.toNat / 2 ^ len / 2 ^ (28 - len) := by
    rw [opField_toNat, Nat.mod_eq_of_lt (by have := w.isLt; omega), hsplit]
  rw [hop, extract_eq_iff, BitVec.ofNat_eq_ofNat, BitVec.toNat_ofNat, Nat.zero_mod]
  constructor
  · rintro ⟨rfl, hres⟩
    exact (Nat.div_mul_cancel (Nat.dvd_of_mod_eq_zero hres)).symm
  · intro h
    rw [h, Nat.mul_div_cancel _ (Nat.two_pow_pos _), Nat.mul_mod_left]
    exact ⟨rfl, rfl⟩

/-- A word is the number of its high bits above its low bits. -/
theorem toNat_eq_iff_high_low (w : EventWord) (c : Nat) {len : Nat} (v : BitVec len) :
    w.toNat = c * 2 ^ len + v.toNat ↔ w.toNat / 2 ^ len = c ∧ w.extractLsb' 0 len = v := by
  rw [extract_eq_iff, Nat.pow_zero, Nat.div_one]
  constructor
  · intro h
    rw [h, Nat.add_comm, Nat.add_mul_div_right _ _ (Nat.two_pow_pos _), Nat.div_eq_of_lt v.isLt,
      Nat.add_mul_mod_self_right, Nat.mod_eq_of_lt v.isLt]
    omega
  · rintro ⟨rfl, hv⟩
    rw [← hv, Nat.div_add_mod']

/-- The operation code of an operation (30_encoding.md R82). -/
def Instr.opcode : Instr → Nat
  | .nop => 0x0
  | .ftick => 0x1
  | .stick => 0x2
  | .pwrite _ _ _ => 0x3
  | .setdir _ => 0x4
  | .settempo _ => 0x5
  | .setaux _ => 0x6
  | .fconv _ => 0x7
  | .reset => 0xF

/-- How many low bits of its event word hold the operands of an operation (30_encoding.md R82). -/
def Instr.operandBits : Instr → Nat
  | .nop => 0
  | .ftick => 0
  | .stick => 0
  | .pwrite _ _ _ => 25
  | .setdir _ => 2
  | .settempo _ => 16
  | .setaux _ => 8
  | .fconv _ => 24
  | .reset => 0

/-- The operands of an operation, as they stand in the low bits of its event word (30_encoding.md R82). -/
def Instr.operands : (i : Instr) → BitVec i.operandBits
  | .nop => 0#0
  | .ftick => 0#0
  | .stick => 0#0
  | .pwrite ch div mul => ch ++ div ++ mul
  | .setdir dir => dir
  | .settempo period => period
  | .setaux val => val
  | .fconv freq => freq
  | .reset => 0#0

/-- The word holds the operation: its code in bits [31:28], its operands in the low bits, zeros between. -/
def Instr.HeldBy (i : Instr) (w : EventWord) : Prop :=
  (opField w).toNat = i.opcode ∧ w.extractLsb' i.operandBits (28 - i.operandBits) = 0 ∧
    w.extractLsb' 0 i.operandBits = i.operands

theorem Instr.operandBits_le (i : Instr) : i.operandBits ≤ 28 := by
  cases i <;> simp [Instr.operandBits]

/-! The encoder -/

theorem Instr.operands_pwrite_toNat (ch : ChannelBit) (d : Divisor) (m : Multiplier) :
    (Instr.pwrite ch d m).operands.toNat = ch.toNat * 2 ^ 24 + d.toNat * 2 ^ 8 + m.toNat := by
  have h : (Instr.pwrite ch d m).operands.toNat = (ch ++ d ++ m).toNat := rfl
  rw [h, append_toNat, append_toNat]
  ring

theorem Instr.operands_setdir_toNat (d : Direction) : (Instr.setdir d).operands.toNat = d.toNat := rfl
theorem Instr.operands_settempo_toNat (p : Tempo) : (Instr.settempo p).operands.toNat = p.toNat := rfl
theorem Instr.operands_setaux_toNat (v : Byte) : (Instr.setaux v).operands.toNat = v.toNat := rfl
theorem Instr.operands_fconv_toNat (f : FreqWord) : (Instr.fconv f).operands.toNat = f.toNat := rfl

theorem encode_toNat (i : Instr) : (encode i).toNat = i.opcode * 2 ^ 28 + i.operands.toNat := by
  cases i with
  | nop => rfl
  | ftick => rfl
  | stick => rfl
  | pwrite ch d m =>
    rw [encode_pwrite_toNat, Instr.operands_pwrite_toNat, Instr.opcode]
    ring
  | setdir d =>
    rw [encode_setdir_toNat, Instr.operands_setdir_toNat, Instr.opcode]
    norm_num
  | settempo p =>
    rw [encode_settempo_toNat, Instr.operands_settempo_toNat, Instr.opcode]
    norm_num
  | setaux v =>
    rw [encode_setaux_toNat, Instr.operands_setaux_toNat, Instr.opcode]
    norm_num
  | fconv f =>
    rw [encode_fconv_toNat, Instr.operands_fconv_toNat, Instr.opcode]
    norm_num
  | reset => rfl

/-- The encoding of an operation is the one word that holds it. -/
theorem encode_eq_iff_heldBy : encode i = w ↔ i.HeldBy w := by
  have hpow : i.opcode * 2 ^ 28 = i.opcode * 2 ^ (28 - i.operandBits) * 2 ^ i.operandBits := by
    rw [Nat.mul_assoc, ← Nat.pow_add, Nat.sub_add_cancel i.operandBits_le]
  rw [eq_comm, ← BitVec.toNat_inj, encode_toNat, hpow, toNat_eq_iff_high_low, ← high_eq_iff w i.operandBits_le,
    and_assoc, Instr.HeldBy]

/-! The decoder, arm by arm -/

theorem ite_ok_eq_ok_iff {p : Prop} [Decidable p] {e : DecodeError} {j : Instr} :
    (if p then .ok j else .error e) = Except.ok i ↔ p ∧ j = i := by
  split <;> simp_all

theorem decodeNoOperand_eq_ok_iff {j : Instr} : decodeNoOperand w j = .ok i ↔ w.extractLsb' 0 28 = 0 ∧ j = i :=
  ite_ok_eq_ok_iff

theorem decodePwrite_eq_ok_iff : decodePwrite w = .ok i ↔
    w.extractLsb' 25 3 = 0 ∧ .pwrite (w.extractLsb' 24 1) (w.extractLsb' 8 16) (w.extractLsb' 0 8) = i :=
  ite_ok_eq_ok_iff

theorem decodeSetdir_eq_ok_iff : decodeSetdir w = .ok i ↔
    w.extractLsb' 2 26 = 0 ∧ w.extractLsb' 0 2 ≠ 0b10#2 ∧ .setdir (w.extractLsb' 0 2) = i := by
  unfold decodeSetdir
  split <;> [split; skip] <;> simp_all

theorem decodeSettempo_eq_ok_iff : decodeSettempo w = .ok i ↔
    w.extractLsb' 16 12 = 0 ∧ .settempo (w.extractLsb' 0 16) = i :=
  ite_ok_eq_ok_iff

theorem decodeSetaux_eq_ok_iff : decodeSetaux w = .ok i ↔
    w.extractLsb' 8 20 = 0 ∧ .setaux (w.extractLsb' 0 8) = i :=
  ite_ok_eq_ok_iff

theorem decodeFconv_eq_ok_iff : decodeFconv w = .ok i ↔
    w.extractLsb' 24 4 = 0 ∧ .fconv (w.extractLsb' 0 24) = i :=
  ite_ok_eq_ok_iff

/-- The code under which the map holds an operation is the operation's own. -/
theorem opcode_eq_of_decodeOp {n : Nat} (h : decodeOp n w = .ok i) : i.opcode = n := by
  unfold decodeOp at h
  split at h
  · obtain ⟨-, rfl⟩ := decodeNoOperand_eq_ok_iff.1 h; rfl
  · obtain ⟨-, rfl⟩ := decodeNoOperand_eq_ok_iff.1 h; rfl
  · obtain ⟨-, rfl⟩ := decodeNoOperand_eq_ok_iff.1 h; rfl
  · obtain ⟨-, rfl⟩ := decodePwrite_eq_ok_iff.1 h; rfl
  · obtain ⟨-, -, rfl⟩ := decodeSetdir_eq_ok_iff.1 h; rfl
  · obtain ⟨-, rfl⟩ := decodeSettempo_eq_ok_iff.1 h; rfl
  · obtain ⟨-, rfl⟩ := decodeSetaux_eq_ok_iff.1 h; rfl
  · obtain ⟨-, rfl⟩ := decodeFconv_eq_ok_iff.1 h; rfl
  · obtain ⟨-, rfl⟩ := decodeNoOperand_eq_ok_iff.1 h; rfl
  · cases h

/-- The three operands of a PWRITE in bits [24:0] (30_encoding.md R82). -/
theorem pwriteOperands_eq_iff (w : EventWord) (ch : ChannelBit) (d : Divisor) (m : Multiplier) :
    w.extractLsb' 0 25 = ch ++ d ++ m ↔
      w.extractLsb' 24 1 = ch ∧ w.extractLsb' 8 16 = d ∧ w.extractLsb' 0 8 = m := by
  have hd := d.isLt
  have hm := m.isLt
  simp only [extract_eq_iff, append_toNat]
  omega

/-- Under the code of an operation the decoder reads exactly its operands. -/
theorem decodeOp_opcode_eq_ok_iff : decodeOp i.opcode w = .ok i ↔
    w.extractLsb' i.operandBits (28 - i.operandBits) = 0 ∧ w.extractLsb' 0 i.operandBits = i.operands ∧
      i.WellFormed = true := by
  cases i with
  | nop => exact decodeNoOperand_eq_ok_iff.trans (by simp [Instr.operandBits, Instr.operands, Instr.WellFormed])
  | ftick => exact decodeNoOperand_eq_ok_iff.trans (by simp [Instr.operandBits, Instr.operands, Instr.WellFormed])
  | stick => exact decodeNoOperand_eq_ok_iff.trans (by simp [Instr.operandBits, Instr.operands, Instr.WellFormed])
  | pwrite ch d m =>
    have hops := pwriteOperands_eq_iff w ch d m
    exact decodePwrite_eq_ok_iff.trans (by simp [Instr.operandBits, Instr.operands, Instr.WellFormed, hops])
  | setdir d =>
    refine decodeSetdir_eq_ok_iff.trans ?_
    simp only [Instr.operandBits, Instr.operands, Instr.WellFormed, Instr.setdir.injEq, bne_iff_ne]
    exact and_congr_right fun _ => and_comm.trans (and_congr_right fun h => by rw [h])
  | settempo p => exact decodeSettempo_eq_ok_iff.trans (by simp [Instr.operandBits, Instr.operands, Instr.WellFormed])
  | setaux v => exact decodeSetaux_eq_ok_iff.trans (by simp [Instr.operandBits, Instr.operands, Instr.WellFormed])
  | fconv f => exact decodeFconv_eq_ok_iff.trans (by simp [Instr.operandBits, Instr.operands, Instr.WellFormed])
  | reset => exact decodeNoOperand_eq_ok_iff.trans (by simp [Instr.operandBits, Instr.operands, Instr.WellFormed])

theorem decode_eq_ok_iff_heldBy : decode w = .ok i ↔ i.HeldBy w ∧ i.WellFormed = true := by
  rw [decode, Instr.HeldBy]
  constructor
  · intro h
    have hop := opcode_eq_of_decodeOp h
    rw [← hop, decodeOp_opcode_eq_ok_iff] at h
    obtain ⟨hres, hops, hwf⟩ := h
    exact ⟨⟨hop.symm, hres, hops⟩, hwf⟩
  · rintro ⟨⟨hop, hres, hops⟩, hwf⟩
    rw [hop]
    exact decodeOp_opcode_eq_ok_iff.2 ⟨hres, hops, hwf⟩

/-- The decoder inverts the encoder on the well-formed operations, and answers nothing else. -/
theorem decode_eq_ok_iff : decode w = .ok i ↔ encode i = w ∧ i.WellFormed = true := by
  rw [encode_eq_iff_heldBy, decode_eq_ok_iff_heldBy]

/-- Settles O44: the encoding of a well-formed operation decodes to it. -/
theorem decodeOfEncodeIsTheOperation : Obligations.DecodeOfEncodeIsTheOperation :=
  fun _ hwf => decode_eq_ok_iff.2 ⟨rfl, hwf⟩

/-- Settles O45: an operation a word decodes to is the one the word holds, and no SETDIR of 0b10. -/
theorem encodeOfDecodeIsTheWord : Obligations.EncodeOfDecodeIsTheWord :=
  fun _ _ h => decode_eq_ok_iff.1 h

end Sys2Proof
end

section
/-! PROOFS. The operation map (30_encoding.md R82) and the requests a step refuses (R83). -/

namespace Sys2Proof

variable {w : EventWord} {i : Instr}

/-! Rows -/

/-- Every mask covers the operation code, so that a row fixes it. -/
theorem opField_eq_of_matches {r : OpRow} (hr : r ∈ opRows) (h : r.Matches w = true) :
    opField w = opField r.pattern := by
  have hmask : ∀ r ∈ opRows, opField r.mask = BitVec.allOnes 4 := by decide
  rw [OpRow.Matches, beq_iff_eq] at h
  have hand : opField (w &&& r.mask) = opField w &&& opField r.mask := BitVec.extractLsb'_and
  rw [← h, hand, hmask r hr, BitVec.and_allOnes]

/-- No word lies in two rows. -/
theorem row_unique {a b : OpRow} (ha : a ∈ opRows) (hb : b ∈ opRows) (hwa : a.Matches w = true)
    (hwb : b.Matches w = true) : a = b := by
  have hcodes : ∀ a ∈ opRows, ∀ b ∈ opRows, opField a.pattern = opField b.pattern → a = b := by decide
  exact hcodes a ha b hb ((opField_eq_of_matches ha hwa).symm.trans (opField_eq_of_matches hb hwb))

/-- The row an encoding lies in carries the mnemonic of its operation. -/
theorem exists_row_of_encode : ∀ i : Instr, ∃ r ∈ opRows, r.Matches (encode i) = true ∧ r.mnemonic = i.mnemonic
  | .nop => Laws.EncodesInItsRow.nop
  | .ftick => Laws.EncodesInItsRow.ftick
  | .stick => Laws.EncodesInItsRow.stick
  | .pwrite ch d m => Laws.EncodesInItsRow.pwrite ch d m
  | .setdir d => Laws.EncodesInItsRow.setdir d
  | .settempo p => Laws.EncodesInItsRow.settempo p
  | .setaux v => Laws.EncodesInItsRow.setaux v
  | .fconv f => Laws.EncodesInItsRow.fconv f
  | .reset => Laws.EncodesInItsRow.reset

/-- A word of a row decodes by the arm of that row, SETDIR 0b10 apart. -/
theorem exists_decode_of_row (hrow : ∃ r ∈ opRows, r.Matches w = true) (hne : w ≠ 0x40000002#32) :
    ∃ i, decode w = .ok i := by
  obtain ⟨r, hr, hw⟩ := hrow
  obtain ⟨h, -⟩ | ⟨h, -⟩ | ⟨h, -⟩ | ⟨h, -⟩ | ⟨h, -⟩ | ⟨h, -⟩ | ⟨h, -⟩ | ⟨h, -⟩ | ⟨h, -⟩ :=
    (exists_row_iff w fun _ => True).1 ⟨r, hr, hw, trivial⟩
  · exact ⟨.nop, by rw [BitVec.eq_of_toNat_eq (y := 0x00000000#32) h]; rfl⟩
  · exact ⟨.ftick, by rw [BitVec.eq_of_toNat_eq (y := 0x10000000#32) h]; rfl⟩
  · exact ⟨.stick, by rw [BitVec.eq_of_toNat_eq (y := 0x20000000#32) h]; rfl⟩
  · obtain ⟨hop, hres⟩ := (high_eq_iff w (len := 25) (by decide) 0x3).2 h
    exact ⟨_, (decode_of_op hop).trans (decodePwrite_eq_ok_iff.2 ⟨hres, rfl⟩)⟩
  · obtain ⟨hop, hres⟩ := (high_eq_iff w (len := 2) (by decide) 0x4).2 h
    refine ⟨_, (decode_of_op hop).trans (decodeSetdir_eq_ok_iff.2 ⟨hres, fun hdir => hne ?_, rfl⟩)⟩
    exact BitVec.eq_of_toNat_eq ((toNat_eq_iff_high_low w 0x10000000 0b10#2).2 ⟨h, hdir⟩)
  · obtain ⟨hop, hres⟩ := (high_eq_iff w (len := 16) (by decide) 0x5).2 h
    exact ⟨_, (decode_of_op hop).trans (decodeSettempo_eq_ok_iff.2 ⟨hres, rfl⟩)⟩
  · obtain ⟨hop, hres⟩ := (high_eq_iff w (len := 8) (by decide) 0x6).2 h
    exact ⟨_, (decode_of_op hop).trans (decodeSetaux_eq_ok_iff.2 ⟨hres, rfl⟩)⟩
  · obtain ⟨hop, hres⟩ := (high_eq_iff w (len := 24) (by decide) 0x7).2 h
    exact ⟨_, (decode_of_op hop).trans (decodeFconv_eq_ok_iff.2 ⟨hres, rfl⟩)⟩
  · exact ⟨.reset, by rw [BitVec.eq_of_toNat_eq (y := 0xF0000000#32) h]; rfl⟩

/-- The words that decode are those of the rows, SETDIR 0b10 apart (30_encoding.md R83). -/
theorem exists_decode_iff :
    (∃ i, decode w = .ok i) ↔ (∃ r ∈ opRows, r.Matches w = true) ∧ w ≠ 0x40000002#32 := by
  constructor
  · rintro ⟨i, h⟩
    obtain ⟨rfl, -⟩ := decode_eq_ok_iff.1 h
    obtain ⟨r, hr, hmatch, -⟩ := exists_row_of_encode i
    refine ⟨⟨r, hr, hmatch⟩, fun hw => ?_⟩
    rw [hw] at h
    cases h
  · rintro ⟨hrow, hne⟩
    exact exists_decode_of_row hrow hne

/-- Settles O46: an operation lies in the row of its mnemonic, and no word lies in two rows. -/
theorem decoderFollowsTheOperationMap : Obligations.DecoderFollowsTheOperationMap := by
  refine ⟨fun w => exists_decode_iff, fun w i r h hr hw => ?_, fun w a b ha hb => row_unique ha hb⟩
  obtain ⟨rfl, -⟩ := decode_eq_ok_iff.1 h
  obtain ⟨r', hr', hw', hname⟩ := exists_row_of_encode i
  rw [row_unique hr hr' hw hw', hname]

/-! The channel a word names -/

/-- On a block with a channel the one absent channel a word can name is B of a block of one (30_encoding.md R83). -/
theorem channelExists_iff_of_decode {nch : Nat} (h : decode w = .ok i) (hnch : 1 ≤ nch) :
    i.ChannelExists nch = true ↔ ¬ (w.extractLsb' 28 4 = 0x3#4 ∧ w.getLsbD 24 = true ∧ nch = 1) := by
  obtain ⟨⟨hop, -, hops⟩, -⟩ := decode_eq_ok_iff_heldBy.1 h
  have hcode : w.extractLsb' 28 4 = 0x3#4 ↔ i.opcode = 3 := by
    rw [← hop, ← BitVec.toNat_inj]
    rfl
  rw [hcode]
  cases i with
  | pwrite ch d m =>
    obtain ⟨hch, -, -⟩ := (pwriteOperands_eq_iff w ch d m).1 hops
    have hbit : w.getLsbD 24 = true ↔ ch.toNat = 1 := by
      rw [← hch, extract_toNat, BitVec.getLsbD, Nat.testBit_eq_decide_div_mod_eq, decide_eq_true_iff]
      rfl
    have hlt := ch.isLt
    rw [hbit]
    simp only [Instr.ChannelExists, Instr.opcode, decide_eq_true_iff, true_and]
    omega
  | _ => simp [Instr.ChannelExists, Instr.opcode]

end Sys2Proof

namespace Sys2Proof.Machine

variable {s : State} {w : EventWord} {i : Instr}

/-- An operation is performed exactly when it is legal on the block (30_encoding.md R83). -/
theorem exists_exec_iff_legalFor : (∃ t, exec i s = .next t) ↔ i.LegalFor s.cfg = true := by
  cases i with
  | pwrite ch d m =>
    by_cases hch : ch.toNat < s.cfg.nch
    · simp [exec_pwrite hch, Instr.LegalFor, Instr.WellFormed, Instr.ChannelExists, hch]
    · simp [exec_pwrite_absent hch, Instr.LegalFor, Instr.WellFormed, Instr.ChannelExists, hch]
  | setdir dir =>
    by_cases hdir : dir = 0b10#2
    · subst hdir
      simp [exec_setdir_reserved, Instr.LegalFor, Instr.WellFormed]
    · simp [exec_setdir hdir, Instr.LegalFor, Instr.WellFormed, Instr.ChannelExists, hdir]
  | stick =>
    by_cases h0 : s.tempoCounter = 0#16
    · exact iff_of_true ⟨_, exec_stick_expiry h0⟩ rfl
    · exact iff_of_true ⟨_, exec_stick_count h0⟩ rfl
  | _ => exact iff_of_true ⟨_, rfl⟩ rfl

theorem step_event_error {e : DecodeError} {rs : List Request} (hin : s.inputs = .event w :: rs)
    (hd : decode w = .error e) : step s = .refused (.illegalWord w e) := by
  simp [step, State.nextRequest_cons s hin, performRequest, hd]

theorem exists_step_event_iff {rs : List Request} (hin : s.inputs = .event w :: rs) :
    (∃ t, step s = .next t) ↔ ∃ i, decode w = .ok i ∧ i.LegalFor s.cfg = true := by
  cases hd : decode w with
  | error e => simp [step_event_error hin hd]
  | ok i => simp [step_event hin hd, exists_exec_iff_legalFor]

/-- A step that answers no next state is refused, as nothing faults (60_exceptions.md R190). -/
theorem exists_refused_of_no_next (h : ¬ ∃ t, step s = .next t) : ∃ r, step s = .refused r := by
  cases hs : step s with
  | next t => exact absurd ⟨t, hs⟩ h
  | fault r => cases r
  | refused r => exact ⟨r, rfl⟩

/-- Settles O43: a step on a word answers when the word decodes to an operation whose channel the block has. -/
theorem illegalWordsAreRefusedAndNoOthers : Obligations.IllegalWordsAreRefusedAndNoOthers := by
  intro s w rest hin hnch
  refine ⟨?_, exists_refused_of_no_next⟩
  rw [exists_step_event_iff hin, ← and_assoc, ← exists_decode_iff]
  constructor
  · rintro ⟨i, hd, hlegal⟩
    obtain ⟨-, hch⟩ := Bool.and_eq_true_iff.1 hlegal
    exact ⟨⟨i, hd⟩, (channelExists_iff_of_decode hd hnch).1 hch⟩
  · rintro ⟨⟨i, hd⟩, hch⟩
    obtain ⟨-, hwf⟩ := decode_eq_ok_iff.1 hd
    exact ⟨i, hd, Bool.and_eq_true_iff.2 ⟨hwf, (channelExists_iff_of_decode hd hnch).2 hch⟩⟩

end Sys2Proof.Machine
end

section
/-! PROOFS. The pseudo-operation NOTE (30_encoding.md R87): FCONV, then PWRITE of its result. -/

namespace Sys2Proof.Machine

/-- NOTE answers the state of the PWRITE, with the conversion still on the ports (41_freq_conversion.md R130). -/
theorem execAll_noteOps {s : State} {ch : ChannelBit} (f : FreqWord) (hch : ch.toNat < s.cfg.nch) :
    execAll (noteOps s.cfg ch f) s =
      .next { s.patWrite s.patternIndex ch.toNat (freqConv s.cfg f) with
        out := { s.out with conv := some (freqConv s.cfg f) } } := by
  rw [noteOps, execAll_cons _ (exec_fconv f s), execAll_singleton]
  exact exec_pwrite hch

/-- Settles O33: reading the Pattern after NOTE is reading it after the PWRITE, as the ports are no part of it. -/
theorem noteStoresTheConvertedPair : Obligations.NoteStoresTheConvertedPair := by
  intro s ch f hch hidx
  refine ⟨_, execAll_noteOps f hch, rfl, rfl, fun i c hi hc => ?_⟩
  exact State.patRead_patWrite (freqConv s.cfg f) hidx hi hch hc

end Sys2Proof.Machine
end

section
/-! PROOFS. The wire sequence of a frame, event by event (30_encoding.md R79, 43_serial_transmitter.md R161 to R163), and
its auxiliary byte (30_encoding.md R80). -/

namespace Sys2Proof.Machine

variable {s : State}

/-! One bit time -/

theorem bitGroup_data {streams : List (List Bool)} {j k : Nat} {st : List Bool} {b : Bool}
    (hst : streams[j]? = some st) (hb : st[k]? = some b) : (bitGroup streams k)[j]? = some ⟨.data j, b⟩ := by
  obtain ⟨hj, -⟩ := List.getElem?_eq_some_iff.1 hst
  rw [bitGroup_eq, dataEvents, List.getElem?_append_left (by simpa using hj), List.getElem?_mapIdx, hst]
  simp [hb]

theorem bitGroup_clockEdges (streams : List (List Bool)) (k : Nat) :
    (bitGroup streams k)[streams.length]? = some ⟨.clk, true⟩ ∧
      (bitGroup streams k)[streams.length + 1]? = some ⟨.clk, false⟩ := by
  constructor <;> simp [bitGroup]

/-! The frame of `kk` bytes per line -/

/-- stream[j] of every line of a frame (43_serial_transmitter.md R162). -/
def State.frameStreams (s : State) : List (List Bool) := s.frameBytes.map (lineStream s.cfg.bitOrder)

theorem State.frameStreams_length (s : State) : s.frameStreams.length = s.cfg.nlines := by
  simp [State.frameStreams]

/-- The bit times of a frame, then the latch pulse (43_serial_transmitter.md R163). -/
theorem State.frameEvents_eq {kk : Nat} (hne : s.cfg.lines ≠ []) (hk : ∀ l ∈ s.cfg.lines, l.length = kk) :
    s.frameEvents = (List.range (8 * kk)).flatMap (bitGroup s.frameStreams) ++ latchPulse := by
  obtain ⟨l, ls, hl⟩ := List.exists_cons_of_ne_nil hne
  have hhead : (s.frameBytes.headD []).length = kk := by
    simpa [State.frameBytes, hl] using hk l (by simp [hl])
  rw [State.frameEvents, transmit, hhead, State.frameStreams]

theorem State.frameGroup_length (s : State) (k : Nat) : (bitGroup s.frameStreams k).length = s.cfg.nlines + 2 := by
  rw [bitGroup_length, State.frameStreams_length]

theorem State.frameGroups_length (s : State) (n : Nat) :
    ((List.range n).flatMap (bitGroup s.frameStreams)).length = n * (s.cfg.nlines + 2) := by
  simp [List.length_flatMap, State.frameGroup_length]

/-- Event `p` of bit time `k` in a frame. -/
theorem State.frameEvents_getElem? {kk k p : Nat} (hne : s.cfg.lines ≠ []) (hkk : ∀ l ∈ s.cfg.lines, l.length = kk)
    (hk : k < 8 * kk) (hp : p < s.cfg.nlines + 2) :
    s.frameEvents[k * (s.cfg.nlines + 2) + p]? = (bitGroup s.frameStreams k)[p]? := by
  have hlt : k * (s.cfg.nlines + 2) + p < 8 * kk * (s.cfg.nlines + 2) :=
    calc k * (s.cfg.nlines + 2) + p < (k + 1) * (s.cfg.nlines + 2) := by rw [Nat.succ_mul]; omega
      _ ≤ 8 * kk * (s.cfg.nlines + 2) := Nat.mul_le_mul_right _ hk
  rw [State.frameEvents_eq hne hkk, List.getElem?_append_left (by rwa [State.frameGroups_length]),
    getElem?_flatMap_range _ _ s.frameGroup_length hk hp]

/-- Bit `k` of line `j`: the bit BIT_ORDER puts there of the byte its source `k / 8` stands for. -/
theorem State.frameStreams_bit {j k : Nat} {l : List ByteSource} {src : ByteSource} (hl : s.cfg.lines[j]? = some l)
    (hsrc : l[k / 8]? = some src) :
    ∃ st, s.frameStreams[j]? = some st ∧
      st[k]? = some ((s.sourceByte src).getLsbD (if s.cfg.bitOrder = .msbFirst then 7 - k % 8 else k % 8)) := by
  refine ⟨lineStream s.cfg.bitOrder (l.map s.sourceByte), ?_, lineStream_getElem? _ ?_⟩
  · simp [State.frameStreams, State.frameBytes, hl]
  · rw [List.getElem?_map, hsrc, Option.map_some]

/-- The byte of a source, by its kind (43_serial_transmitter.md R161). -/
theorem State.sourceByte_eq_of_cases {src : ByteSource} {b : Byte}
    (h : (∃ c, src = .sample c ∧ b = s.sample c) ∨ (src = .aux ∧ b = s.auxByte) ∨ src = .const b) :
    s.sourceByte src = b := by
  obtain ⟨c, rfl, rfl⟩ | ⟨rfl, rfl⟩ | rfl := h <;> rfl

/-- Settles O34: an event of a bit time stands at its place in the bit time's block of NLINES + 2 events, and the latch
pulse stands after the 8K blocks. -/
theorem frameHasTheStatedWireSequence : Obligations.FrameHasTheStatedWireSequence := by
  intro s kk hne hkk
  have hlen := s.frameGroups_length (8 * kk)
  refine ⟨by simp [State.frameEvents_eq hne hkk, hlen, latchPulse], fun k hk => ⟨?data, ?high, ?low⟩, ?latch, ?unlatch⟩
  case data =>
    intro j l src b hl hsrc hb
    obtain ⟨hj, -⟩ := List.getElem?_eq_some_iff.1 hl
    obtain ⟨st, hst, hbit⟩ := State.frameStreams_bit hl hsrc
    rw [State.sourceByte_eq_of_cases hb] at hbit
    rw [State.frameEvents_getElem? hne hkk hk (Nat.lt_add_right 2 hj), bitGroup_data hst hbit]
  case high =>
    obtain ⟨hhigh, -⟩ := bitGroup_clockEdges s.frameStreams k
    rwa [State.frameEvents_getElem? hne hkk hk (by omega), ← s.frameStreams_length]
  case low =>
    obtain ⟨-, hlow⟩ := bitGroup_clockEdges s.frameStreams k
    rwa [Nat.add_assoc, State.frameEvents_getElem? hne hkk hk (by omega), ← s.frameStreams_length]
  case latch => rw [State.frameEvents_eq hne hkk, ← hlen, List.getElem?_append_right (le_refl _), Nat.sub_self]; rfl
  case unlatch =>
    rw [State.frameEvents_eq hne hkk, ← hlen, List.getElem?_append_right (Nat.le_add_right _ _), Nat.add_sub_cancel_left]
    rfl

/-! The auxiliary byte -/

/-- Settles O23: by the two values of AUX_SOURCE; an index below 64 has no bit 6 and no bit 7. -/
theorem auxiliaryByteIsIndexOrRegister : Obligations.AuxiliaryByteIsIndexOrRegister := by
  intro s
  constructor
  · intro hsource
    have haux : s.auxByte = BitVec.ofNat 8 s.patternIndex := by rw [State.auxByte, hsource]
    rw [haux, BitVec.toNat_ofNat]
    refine ⟨rfl, fun hidx => ?_⟩
    have hhigh : ∀ b, 6 ≤ b → (BitVec.ofNat 8 s.patternIndex).getLsbD b = false := by
      intro b hb
      have hpow : s.patternIndex < 2 ^ b := hidx.trans_le (Nat.pow_le_pow_right (n := 2) (by decide) hb)
      rw [BitVec.getLsbD_ofNat, Nat.testBit_lt_two_pow hpow, Bool.and_false]
    exact ⟨Nat.mod_eq_of_lt (by omega), hhigh 7 (by decide), hhigh 6 (by decide)⟩
  · intro hsource
    rw [State.auxByte, hsource]

end Sys2Proof.Machine
end

section
/-! PROOFS. What an FTICK does to one channel and to its changed flag (40_phase_accumulator.md R101, R105, R107,
R108). -/

namespace Sys2Proof.Machine

variable {s t : State}

/-! The changed flag, case by case -/

theorem Channel.underflows_silent {x : Channel} (h : x.divisor = 0#16) : x.underflows = false := by
  simp [Channel.underflows, h]

theorem Channel.underflows_hold {x : Channel} (h : x.counter ≠ 0#16) : x.underflows = false := by
  simp [Channel.underflows, h]

/-- An underflow reloads the counter with a divisor that is not 0. -/
theorem Channel.chStep_not_underflows (l : Nat) {x : Channel} (h : x.underflows = true) :
    (x.chStep l).underflows = false := by
  obtain ⟨hd, hc⟩ := (Channel.underflows_iff x).1 h
  rw [Channel.chStep_underflow l hd hc]
  exact Channel.underflows_hold hd

/-- Only the multiplier modulo the Wavetable length moves the phase. -/
theorem Channel.chStep_phasePosition_congr {l : Nat} (x : Channel) {m : Multiplier}
    (hm : m.toNat % l = x.multiplier.toNat % l) :
    (Channel.chStep l { x with multiplier := m }).phasePosition = (x.chStep l).phasePosition := by
  by_cases hd : x.divisor = 0#16
  · rw [Channel.chStep_silent l hd, Channel.chStep_silent l (x := { x with multiplier := m }) hd]
  · by_cases hc : x.counter = 0#16
    · rw [Channel.chStep_underflow l hd hc, Channel.chStep_underflow l (x := { x with multiplier := m }) hd hc]
      exact Nat.ModEq.add_left x.phasePosition hm
    · rw [Channel.chStep_hold l hd hc, Channel.chStep_hold l (x := { x with multiplier := m }) hd hc]

/-! One channel of the block -/

theorem exec_ftick_ch_getElem? (h : exec .ftick s = .next t) (c : Nat) :
    t.ch[c]? = s.ch[c]?.map (Channel.chStep s.cfg.tableLen) := by
  rw [exec_ftick_ch h, List.getElem?_map]

theorem exec_ftick_changed (h : exec .ftick s = .next t) : t.out.changed = changedFlags s.ch := by
  rw [exec_ftick_out h]

theorem exec_ftick_changed_getElem? (h : exec .ftick s = .next t) (c : Nat) :
    t.out.changed[c]? = s.ch[c]?.map Channel.underflows := by
  rw [exec_ftick_changed h, changedFlags, List.getElem?_map]

/-- Settles O2: CHSTEP and its flag on the channel, by the three cases of R101. -/
theorem ftickStepsEveryChannel : Obligations.FtickStepsEveryChannel := by
  intro s
  have h := exec_ftick s
  refine ⟨_, h, exec_ch_length h (by simp), by simp [exec_ftick_changed h, changedFlags], fun c x hx => ?_⟩
  rw [exec_ftick_ch_getElem? h, exec_ftick_changed_getElem? h, hx, Option.map_some, Option.map_some]
  refine ⟨fun hd => ?silent, fun hd hc => ?underflow, fun hd hc => ?hold⟩
  case silent => rw [Channel.chStep_silent _ hd, Channel.underflows_silent hd]; exact ⟨rfl, rfl⟩
  case underflow => rw [Channel.chStep_underflow _ hd hc, (Channel.underflows_iff x).2 ⟨hd, hc⟩]; exact ⟨rfl, rfl⟩
  case hold => rw [Channel.chStep_hold _ hd hc, Channel.underflows_hold hc]; exact ⟨rfl, rfl⟩

/-- Settles O8: every channel after an FTICK is a CHSTEP of one before it. -/
theorem ftickKeepsRegisterRanges : Obligations.FtickKeepsRegisterRanges := by
  intro s t h hrange y hy
  obtain ⟨hcfg, -⟩ := exec_cfg_inputs h
  rw [exec_ftick_ch h] at hy
  obtain ⟨x, hx, rfl⟩ := List.mem_map.1 hy
  obtain ⟨hphase, hcounter⟩ := hrange x hx
  rw [hcfg]
  exact Channel.chStep_inRange hphase hcounter

/-- Settles O9: the second tick finds the channel as the underflow of the first has left it. -/
theorem noUnderflowOnConsecutiveTicks : Obligations.NoUnderflowOnConsecutiveTicks := by
  refine ⟨fun s t u c hst htu hflag => ?_, fun l x m hm => x.chStep_phasePosition_congr hm⟩
  rw [exec_ftick_changed_getElem? hst] at hflag
  obtain ⟨x, hx, hunder⟩ := Option.map_eq_some_iff.1 hflag
  rw [exec_ftick_changed_getElem? htu, exec_ftick_ch_getElem? hst, hx, Option.map_some, Option.map_some,
    Channel.chStep_not_underflows _ hunder]

/-- Settles O10: channel and flag after an FTICK are functions of the channel before it and of the Wavetable length. -/
theorem ftickChannelsAreIndependent : Obligations.FtickChannelsAreIndependent := by
  intro s u t v c hst huv hlen hch
  rw [exec_ftick_ch_getElem? hst, exec_ftick_ch_getElem? huv, exec_ftick_changed_getElem? hst,
    exec_ftick_changed_getElem? huv, hlen, hch]
  exact ⟨rfl, rfl⟩

end Sys2Proof.Machine
end

section
/-! PROOFS. The frame of an FTICK and all that an FTICK leaves alone (40_phase_accumulator.md R104, R110). -/

namespace Sys2Proof.Machine

variable {s t u v : State}

/-! The two kinds of FTICK -/

theorem exec_ftick_of_underflow (h : anyChanged s.ch = true) : exec .ftick s = .next s.stepChannels.send := by
  rw [exec_ftick, if_pos h]

theorem exec_ftick_of_no_underflow (h : anyChanged s.ch = false) : exec .ftick s = .next s.stepChannels := by
  rw [exec_ftick, h, if_neg Bool.false_ne_true]

theorem anyChanged_eq_false_iff (ch : List Channel) :
    anyChanged ch = false ↔ ∀ x ∈ ch, x.divisor = 0#16 ∨ x.counter ≠ 0#16 := by
  rw [← Bool.not_eq_true, anyChanged_iff]
  push Not
  simp only [or_iff_not_imp_left, ne_eq]

/-- Settles O3: the trace grows by the frame of the state after the channel steps, which sending leaves the same. -/
theorem ftickSendsOneFrameIffUnderflow : Obligations.FtickSendsOneFrameIffUnderflow := by
  intro s
  cases hsend : anyChanged s.ch with
  | true =>
    have h := exec_ftick_of_underflow hsend
    refine ⟨_, h, exec_ftick_ch h, fun _ => by simp, fun hnone => ?_⟩
    rw [(anyChanged_eq_false_iff s.ch).2 hnone] at hsend
    cases hsend
  | false =>
    have h := exec_ftick_of_no_underflow hsend
    refine ⟨_, h, exec_ftick_ch h, fun hsome => ?_, fun _ => ⟨rfl, rfl, rfl, rfl⟩⟩
    rw [(anyChanged_iff s.ch).2 hsome] at hsend
    cases hsend

/-! The wire of two states -/

/-- The two states have the same output lines and the same wire trace. -/
def State.SameWire (u s : State) : Prop :=
  u.serData = s.serData ∧ u.serClk = s.serClk ∧ u.serLatch = s.serLatch ∧ u.trace = s.trace

theorem State.SameWire.drive (h : u.SameWire s) (e : WireEvent) : (u.drive e).SameWire (s.drive e) := by
  obtain ⟨hdata, hclk, hlatch, htrace⟩ := h
  obtain ⟨line, level⟩ := e
  cases line <;> simp [State.SameWire, State.drive, hdata, hclk, hlatch, htrace]

theorem State.SameWire.driveAll (h : u.SameWire s) (evs : List WireEvent) :
    (u.driveAll evs).SameWire (s.driveAll evs) := by
  induction evs generalizing u s with
  | nil => exact h
  | cons e evs ih => exact ih (h.drive e)

/-- Two states that send the same frame keep the same wire. -/
theorem State.SameWire.send (h : u.SameWire s) (hframe : u.frameEvents = s.frameEvents) : u.send.SameWire s.send := by
  unfold State.send
  rw [hframe]
  exact h.driveAll _

/-- What an FTICK drives depends on the parameters, the channel registers, the auxiliary byte and the wire only. -/
theorem exec_ftick_sameWire (hs : exec .ftick s = .next t) (hu : exec .ftick u = .next v) (hcfg : u.cfg = s.cfg)
    (hch : u.ch = s.ch) (haux : u.auxByte = s.auxByte) (hwire : u.SameWire s) : v.SameWire t := by
  have hstep : u.stepChannels.SameWire s.stepChannels := hwire
  have hframe : u.stepChannels.frameEvents = s.stepChannels.frameEvents :=
    State.frameEvents_congr hcfg (by simp [hcfg, hch]) haux
  cases hsend : anyChanged s.ch with
  | true =>
    rw [exec_ftick_of_underflow hsend] at hs
    rw [exec_ftick_of_underflow (hch ▸ hsend)] at hu
    cases hs
    cases hu
    exact hstep.send hframe
  | false =>
    rw [exec_ftick_of_no_underflow hsend] at hs
    rw [exec_ftick_of_no_underflow (hch ▸ hsend)] at hu
    cases hs
    cases hu
    exact hstep

/-- Settles O4: the fields by the agent that owns them, then the two states through `exec_ftick_sameWire`. -/
theorem ftickTouchesAndReadsNothingElse : Obligations.FtickTouchesAndReadsNothingElse := by
  intro s t h
  obtain ⟨hcount, hidx, -, hcfg⟩ := exec_keeps_sequencer h rfl
  obtain ⟨hdir, hperiod, haux, hpat⟩ := exec_tick_keeps_host_fields h (.inl rfl)
  obtain ⟨-, hin⟩ := exec_cfg_inputs h
  refine ⟨fun c x hx => ⟨x.chStep s.cfg.tableLen, ?_, by simp, by simp⟩, hidx, hcount, hdir, hperiod, haux,
    State.patRead_eq_of_exec h hpat, hcfg, hin, by rw [exec_ftick_out h], ?_⟩
  · rw [exec_ftick_ch_getElem? h, hx, Option.map_some]
  · intro u v hu hucfg huch huaux hdata hclk hlatch htrace
    obtain ⟨hdata', hclk', hlatch', htrace'⟩ :=
      exec_ftick_sameWire h hu hucfg huch huaux ⟨hdata, hclk, hlatch, htrace⟩
    refine ⟨?_, hdata', hclk', hlatch', htrace', ?_⟩
    · rw [exec_ftick_ch hu, exec_ftick_ch h, hucfg, huch]
    · rw [exec_ftick_changed hu, exec_ftick_changed h, huch]

end Sys2Proof.Machine
end

section
/-! PROOFS. The sample of a channel (40_phase_accumulator.md R103), and a channel over runs of fast ticks: silent (R102)
and running (R106). -/

namespace Sys2Proof.Machine

variable {s t : State} {c : Nat} {x : Channel}

/-! SAMPLE -/

theorem State.sample_eq_of_getElem? (hx : s.ch[c]? = some x) : s.sample c = channelSample s.cfg x := by
  rw [State.sample, hx]

theorem State.sample_silent (hx : s.ch[c]? = some x) (hd : x.divisor = 0#16) : s.sample c = s.cfg.zeroLevel := by
  rw [State.sample_eq_of_getElem? hx, channelSample, if_pos hd]

theorem wavetable_getElem?_eq_tabRead {cfg : Config} {i : Nat} (hi : i < cfg.tableLen) :
    cfg.wavetable[i]? = some (tabRead cfg i) := by
  have hi' : i < cfg.wavetable.length := hi
  rw [tabRead, Nat.mod_eq_of_lt hi, List.getD_eq_getElem _ _ hi', List.getElem?_eq_getElem hi']

/-- Settles O6: by the two cases of R103. -/
theorem sampleIsTableEntryOrZeroLevel : Obligations.SampleIsTableEntryOrZeroLevel := by
  refine fun s c x hx => ⟨State.sample_silent hx, fun hd hphase => ?_⟩
  rw [State.sample_eq_of_getElem? hx, channelSample, if_neg hd, wavetable_getElem?_eq_tabRead hphase]

/-! A run without RESET and without an expiry -/

/-- The channel after such a run has been stepped once per FTICK, and by nothing else. -/
theorem execAll_ch_getElem? {is : List Instr} (hr : .reset ∉ is) (hc : is.count .stick ≤ s.tempoCounter.toNat)
    (h : execAll is s = .next t) (hx : s.ch[c]? = some x) :
    t.ch[c]? = some ((Channel.chStep s.cfg.tableLen)^[is.count .ftick] x) := by
  obtain ⟨hch, -⟩ := execAll_channels is hr hc h
  rw [hch, List.getElem?_map, hx, Option.map_some]

/-! A silent channel -/

theorem Channel.chStep_iterate_silent (l n : Nat) (hd : x.divisor = 0#16) :
    (Channel.chStep l)^[n] x = x :=
  Function.iterate_fixed (Channel.chStep_silent l hd) n

theorem execAll_keeps_silent {is : List Instr} (hr : .reset ∉ is) (hc : is.count .stick ≤ s.tempoCounter.toNat)
    (h : execAll is s = .next t) (hx : s.ch[c]? = some x) (hd : x.divisor = 0#16) :
    t.ch[c]? = some x ∧ t.sample c = s.cfg.zeroLevel := by
  have hx' : t.ch[c]? = some x := by
    rw [execAll_ch_getElem? hr hc h hx, Channel.chStep_iterate_silent _ _ hd]
  obtain ⟨hcfg, -⟩ := execAll_cfg_inputs h
  exact ⟨hx', hcfg ▸ State.sample_silent hx' hd⟩

theorem execAll_fticks_keeps_silent {n : Nat} (h : execAll (List.replicate n .ftick) s = .next t)
    (hx : s.ch[c]? = some x) (hd : x.divisor = 0#16) : t.ch[c]? = some x ∧ t.sample c = s.cfg.zeroLevel :=
  execAll_keeps_silent (by simp [List.mem_replicate]) (by simp [List.count_replicate]) h hx hd

/-- The flags that stand after `n + 1` fast ticks are those of the last one. -/
theorem execAll_fticks_succ (n : Nat) (s : State) :
    ∃ u t, execAll (List.replicate n .ftick) s = .next u ∧ exec .ftick u = .next t ∧
      execAll (List.replicate (n + 1) .ftick) s = .next t := by
  obtain ⟨u, hu, -⟩ := execAll_fticks n s
  refine ⟨u, _, hu, exec_ftick u, ?_⟩
  rw [List.replicate_succ', execAll_append _ hu, execAll_singleton, exec_ftick]

theorem exec_stick_phasePosition (h : exec .stick s = .next t) (hx : s.ch[c]? = some x) :
    ∃ y, t.ch[c]? = some y ∧ y.phasePosition = x.phasePosition := by
  obtain ⟨y, hy, rfl | ⟨hi, -⟩ | ⟨-, rfl⟩⟩ := exec_channel_cases h (by simp) hx
  · exact ⟨y, hy, rfl⟩
  · cases hi
  · exact ⟨_, hy, Channel.load_phasePosition _ _⟩

/-- Settles O5: CHSTEP leaves a silent channel as it is, a run without an expiry steps it by CHSTEP only, and a load
writes no phase. -/
theorem silentChannelStaysFrozen : Obligations.SilentChannelStaysFrozen := by
  intro s n c x hx hd
  refine ⟨?ticks, fun is t hr hc h => execAll_keeps_silent hr hc h hx hd, fun t h => exec_stick_phasePosition h hx⟩
  case ticks =>
    cases n with
    | zero => exact ⟨s, rfl, hx, State.sample_silent hx hd, fun h => absurd h (Nat.lt_irrefl 0)⟩
    | succ n =>
      obtain ⟨u, t, hu, hlast, h⟩ := execAll_fticks_succ n s
      obtain ⟨hux, -⟩ := execAll_fticks_keeps_silent hu hx hd
      obtain ⟨htx, hsample⟩ := execAll_fticks_keeps_silent h hx hd
      refine ⟨t, h, htx, hsample, fun _ => ?_⟩
      rw [exec_ftick_changed_getElem? hlast, hux, Option.map_some, Channel.underflows_silent hd]

/-! A running channel -/

/-- Of D + 1 fast ticks in a row the one the counter names is the only underflow. -/
theorem Channel.underflows_once_per_period (l : Nat) (hd : x.divisor ≠ 0#16)
    (hc : x.counter ≤ x.divisor) :
    ((List.range (x.divisor.toNat + 1)).filter (fun k => ((Channel.chStep l)^[k] x).underflows)).length = 1 := by
  have hmem : x.counter.toNat ∈ List.range (x.divisor.toNat + 1) :=
    List.mem_range.2 (Nat.lt_succ_of_le (BitVec.le_def.1 hc))
  have hfilter : (List.range (x.divisor.toNat + 1)).filter (fun k => ((Channel.chStep l)^[k] x).underflows) =
      (List.range (x.divisor.toNat + 1)).filter (· == x.counter.toNat) := by
    refine List.filter_congr fun k hk => ?_
    rw [Bool.eq_iff_iff, beq_iff_eq]
    exact Channel.iterate_underflows_iff l hd hc (Nat.lt_succ_iff.1 (List.mem_range.1 hk))
  rw [hfilter, ← List.count_eq_length_filter]
  exact List.count_eq_one_of_mem List.nodup_range hmem

/-- From an underflow the counter reads D, D - 1, ..., 0. -/
theorem Channel.counter_after_underflow (l : Nat) (hd : x.divisor ≠ 0#16) (hc : x.counter = 0#16)
    {k : Nat} (hk : k ≤ x.divisor.toNat) :
    ((Channel.chStep l)^[k + 1] x).counter.toNat = x.divisor.toNat - k := by
  rw [Function.iterate_succ_apply, Channel.chStep_underflow l hd hc,
    Channel.chStep_iterate_hold l (x := ⟨x.divisor, _, x.divisor, _⟩) hd hk]
  have hlt := x.divisor.isLt
  have hcount : (x.divisor - BitVec.ofNat 16 k).toNat = x.divisor.toNat - k := by
    rw [BitVec.toNat_sub, BitVec.toNat_ofNat]
    omega
  exact hcount

/-- Settles O7: D + 1 fast ticks are one period of CHSTEP, whatever other operations stand between them. -/
theorem phasePeriodLaw : Obligations.PhasePeriodLaw := by
  intro s c x hx hd hc
  refine ⟨fun is t hr hsticks hfticks h => ?_, Channel.underflows_once_per_period _ hd hc,
    fun h0 k hk => Channel.counter_after_underflow _ hd h0 hk⟩
  rw [execAll_ch_getElem? hr hsticks h hx, hfticks, Channel.chStep_iterate_period _ hd hc]

end Sys2Proof.Machine
end

section
/-! PROOFS. What FCONV puts on its ports and how it is requested (41_freq_conversion.md R120, R121; 30_encoding.md R82). -/

namespace Sys2Proof.Machine

theorem decode_fconvWord (f : FreqWord) : decode (BitVec.ofNat 32 (0x70000000 + f.toNat)) = .ok (.fconv f) := by
  rw [← encode_fconv_toNat, BitVec.ofNat_toNat, BitVec.setWidth_eq]
  exact decodeOfEncodeIsTheOperation _ rfl

/-- A cycle with `conv_req` the only strobe high requests FCONV alone (10_state.md R37). -/
theorem cycleRequests_fconv_only (o : TickOrder) {p : PortCycle} (hconv : p.convReq = true)
    (hlow : true ∉ [p.rst, p.fastTick, p.slowTick, p.patWr, p.dirWr, p.tempoWr, p.auxWr]) :
    cycleRequests o p = [.fconv p.convFreq] := by
  simp only [List.mem_cons, List.not_mem_nil, or_false, not_or, eq_comm (a := true), Bool.not_eq_true] at hlow
  obtain ⟨hrst, hfast, hslow, hpat, hdir, htempo, haux⟩ := hlow
  rw [cycleRequests_of_not_rst o hrst, requests_eq_strobed]
  simp [hconv, hfast, hslow, hpat, hdir, htempo, haux, orNop]

/-- Settles O28: the pair is `freqConv`, whose fields as numbers are R125 and R126. -/
theorem fconvComputesRoundedSaturatedPair : Obligations.FconvComputesRoundedSaturatedPair := by
  refine fun s f => ⟨freqConv s.cfg f, exec_fconv f s, fun hrest => ?rest, fun hf => ?fields, decode_fconvWord f,
    fun o p hconv hfreq hlow => ?cycle⟩
  case rest => rw [hrest, freqConv_rest]
  case fields => exact ⟨freqConv_divisor s.cfg hf, freqConv_multiplier s.cfg hf⟩
  case cycle => rw [cycleRequests_fconv_only o hconv hlow, hfreq]

end Sys2Proof.Machine
end

section
/-! PROOFS. The values of a conversion (41_freq_conversion.md R127, R128), in the numbers Nn = freq_raw x L and
Dn = R x 256 of R125: when a field takes a given value, the coarse cases, and the length of a step. -/

namespace Sys2Proof.Machine

variable {c : Config} {f : FreqWord}

theorem convNum_pos (hL : 1 ≤ c.tableLen) (hf : f ≠ 0#24) : 0 < f.toNat * c.tableLen :=
  Nat.mul_pos (freqWord_pos hf) hL

theorem convDen_pos (hR : 1 ≤ c.tickRate) : 0 < c.tickRate * 256 := by omega

/-! One field -/

/-- Below saturation the divisor is `d` when 1 / sigma rounds to `d`. -/
theorem freqConv_divisor_eq_iff {d : Nat} (hd : d < 65535) (hL : 1 ≤ c.tableLen) (hf : f ≠ 0#24) :
    (freqConv c f).divisor.toNat = d ↔
      d * (2 * (f.toNat * c.tableLen)) ≤ 2 * (c.tickRate * 256) + f.toNat * c.tableLen ∧
      2 * (c.tickRate * 256) + f.toNat * c.tableLen < (d + 1) * (2 * (f.toNat * c.tableLen)) := by
  have hN := convNum_pos hL hf
  rw [freqConv_divisor c hf, ← Nat.le_div_iff_mul_le (by omega), ← Nat.div_lt_iff_lt_mul (by omega)]
  omega

/-- Below saturation the multiplier is `m` when sigma rounds to `m`; every sigma below 3/2 gives 1, by the clamp. -/
theorem freqConv_multiplier_eq_iff {m : Nat} (h1 : 1 ≤ m) (hm : m < 255) (hR : 1 ≤ c.tickRate) (hf : f ≠ 0#24) :
    (freqConv c f).multiplier.toNat = m ↔
      (m = 1 ∨ m * (2 * (c.tickRate * 256)) ≤ 2 * (f.toNat * c.tableLen) + c.tickRate * 256) ∧
      2 * (f.toNat * c.tableLen) + c.tickRate * 256 < (m + 1) * (2 * (c.tickRate * 256)) := by
  have hD := convDen_pos hR
  rw [freqConv_multiplier c hf, ← Nat.le_div_iff_mul_le (by omega), ← Nat.div_lt_iff_lt_mul (by omega)]
  omega

theorem freqConv_multiplier_pos (hf : f ≠ 0#24) : 1 ≤ (freqConv c f).multiplier.toNat := by
  rw [freqConv_multiplier c hf]
  exact le_min (Nat.le_max_left 1 _) (by decide)

/-- For sigma < 3/2 the multiplier is 1. -/
theorem freqConv_multiplier_eq_one (hR : 1 ≤ c.tickRate) (hf : f ≠ 0#24)
    (h : 2 * (f.toNat * c.tableLen) < 3 * (c.tickRate * 256)) : (freqConv c f).multiplier.toNat = 1 :=
  (freqConv_multiplier_eq_iff le_rfl (by decide) hR hf).2 ⟨.inl rfl, by omega⟩

/-! The coarse pairs -/

/-- For 1/2 <= sigma <= 2/3 the pair is (2, 1). -/
theorem freqConv_eq_two_one (hL : 1 ≤ c.tableLen) (hR : 1 ≤ c.tickRate) (hf : f ≠ 0#24)
    (hlo : c.tickRate * 256 ≤ 2 * (f.toNat * c.tableLen)) (hhi : 3 * (f.toNat * c.tableLen) ≤ 2 * (c.tickRate * 256)) :
    freqConv c f = ⟨2#16, 1#8⟩ := by
  have hN := convNum_pos hL hf
  exact PatternStep.eq_of_toNat ((freqConv_divisor_eq_iff (d := 2) (by decide) hL hf).2 (by omega))
    (freqConv_multiplier_eq_one hR hf (by omega))

/-- For 2/3 < sigma < 3/2 the pair is (1, 1). -/
theorem freqConv_eq_one_one (hL : 1 ≤ c.tableLen) (hR : 1 ≤ c.tickRate) (hf : f ≠ 0#24)
    (hlo : 2 * (c.tickRate * 256) < 3 * (f.toNat * c.tableLen))
    (hhi : 2 * (f.toNat * c.tableLen) < 3 * (c.tickRate * 256)) : freqConv c f = ⟨1#16, 1#8⟩ :=
  PatternStep.eq_of_toNat ((freqConv_divisor_eq_iff (d := 1) (by decide) hL hf).2 (by omega))
    (freqConv_multiplier_eq_one hR hf hhi)

/-- For 3/2 <= sigma <= 2 the pair is (1, 2). -/
theorem freqConv_eq_one_two (hL : 1 ≤ c.tableLen) (hR : 1 ≤ c.tickRate) (hf : f ≠ 0#24)
    (hlo : 3 * (c.tickRate * 256) ≤ 2 * (f.toNat * c.tableLen)) (hhi : f.toNat * c.tableLen ≤ 2 * (c.tickRate * 256)) :
    freqConv c f = ⟨1#16, 2#8⟩ := by
  have hD := convDen_pos hR
  exact PatternStep.eq_of_toNat ((freqConv_divisor_eq_iff (d := 1) (by decide) hL hf).2 (by omega))
    ((freqConv_multiplier_eq_iff (m := 2) (by decide) (by decide) hR hf).2 (by omega))

/-- Settles O29: 1 / sigma rounds to 0 exactly when it is below 1/2, and sigma = 2 is the top of the (1, 2) case. -/
theorem fconvIsSilentAboveTwiceTheStepRate : Obligations.FconvIsSilentAboveTwiceTheStepRate := by
  intro c f hL hR hf
  refine ⟨?silent, fun h0 => ?clamped, fun h2 => freqConv_eq_one_two hL hR hf (by omega) h2.le⟩
  case silent =>
    rw [← BitVec.toNat_inj, BitVec.toNat_ofNat, Nat.zero_mod, freqConv_divisor_eq_iff (by decide) hL hf]
    omega
  case clamped =>
    have hpos : 1 ≤ (freqConv c f).multiplier.toNat := freqConv_multiplier_pos hf
    rw [h0] at hpos
    exact absurd hpos (by decide)

/-! The length of a step -/

/-- Below saturation the D + 1 ticks of a step exceed 1 / sigma by more than 1/2 and at most 3/2 (R128). -/
theorem freqConv_step_length (hL : 1 ≤ c.tableLen) (hf : f ≠ 0#24)
    (h : (freqConv c f).divisor.toNat =
      (2 * (c.tickRate * 256) + f.toNat * c.tableLen) / (2 * (f.toNat * c.tableLen))) :
    2 * (c.tickRate * 256) + f.toNat * c.tableLen <
      2 * ((freqConv c f).divisor.toNat + 1) * (f.toNat * c.tableLen) ∧
    2 * ((freqConv c f).divisor.toNat + 1) * (f.toNat * c.tableLen) ≤
      2 * (c.tickRate * 256) + 3 * (f.toNat * c.tableLen) := by
  have hN := convNum_pos hL hf
  have hlo := (Nat.le_div_iff_mul_le (by omega)).1 h.le
  have hhi := (Nat.div_lt_iff_lt_mul (by omega)).1 (Nat.lt_succ_of_le h.ge)
  constructor <;> linarith

/-- Settles O30: the multiplier is 1, the step length is `freqConv_step_length`, and the coarse pairs are each a lemma. -/
theorem fconvHoldsEachStepHalfToThreeHalvesTicksTooLong :
    Obligations.FconvHoldsEachStepHalfToThreeHalvesTicksTooLong := by
  intro c f hL hR hf
  refine ⟨fun hsigma => ?below, freqConv_eq_two_one hL hR hf, freqConv_eq_one_one hL hR hf,
    freqConv_eq_one_two hL hR hf⟩
  have hmul := freqConv_multiplier_eq_one hR hf hsigma
  refine ⟨BitVec.eq_of_toNat_eq hmul, fun hsat => ?_⟩
  have hdiv : (freqConv c f).divisor.toNat = _ := (freqConv_divisor c hf).trans (Nat.min_eq_left hsat)
  obtain ⟨hlong, hshort⟩ := freqConv_step_length hL hf hdiv
  refine ⟨hdiv, hlong, hshort, ?flat⟩
  case flat =>
    rw [hmul]
    linarith

/-! The saturated edge -/

/-- A block of tick rate 131071 with the reference Wavetable of 8 entries. At 1/4 Hz, frequency word 64, it has
1 / sigma = 65535.5. -/
def saturatedEdge : Config := { Config.reference with tickRate := 131071 }

theorem saturatedEdge_wellFormed : saturatedEdge.WellFormed := by decide

/-- Refutes O31: at 1 / sigma = 65535.5 the divisor saturates to 65535, which still holds each step 65536 ticks, so the
channel plays below the request. -/
theorem not_saturatedFconvIsAlwaysSharp : ¬ Obligations.SaturatedFconvIsAlwaysSharp := by
  intro h
  obtain ⟨-, hL, -, -, hR, -⟩ := saturatedEdge_wellFormed
  have hnum : (64#24).toNat * saturatedEdge.tableLen = 512 := rfl
  have hden : saturatedEdge.tickRate * 256 = 33554176 := rfl
  have hdiv : (freqConv saturatedEdge 64#24).divisor.toNat = 65535 := by
    rw [freqConv_divisor _ (by decide), hnum, hden]
    decide
  have hmul : (freqConv saturatedEdge 64#24).multiplier.toNat = 1 :=
    freqConv_multiplier_eq_one hR (by decide) (by omega)
  have hsharp := h saturatedEdge 64#24 hL hR (by decide) (by rw [hnum, hden]; decide)
  rw [hdiv, hmul, hnum, hden] at hsharp
  exact absurd hsharp (by decide)

end Sys2Proof.Machine
end

section
/-! PROOFS. The place of FCONV among the operations (41_freq_conversion.md R129): it writes the ports only, and no
operation reads them (10_state.md R28). -/

namespace Sys2Proof.Machine

variable {s t : State} {i : Instr}

theorem State.send_setOut (s : State) (o : Outputs) : State.send { s with out := o } = { s.send with out := o } :=
  s.driveAll_setOut s.frameEvents o

/-- The two operands that make an operation refused (30_encoding.md R83). -/
theorem exec_refused_cases {r : Refusal} (h : exec i s = .refused r) :
    (∃ ch d m, i = .pwrite ch d m ∧ ¬ ch.toNat < s.cfg.nch ∧ r = .absentChannel) ∨
    (i = .setdir 0b10#2 ∧ r = .reservedDirection) := by
  cases i with
  | pwrite ch d m =>
    by_cases hch : ch.toNat < s.cfg.nch
    · rw [exec_pwrite hch] at h
      cases h
    · rw [exec_pwrite_absent hch] at h
      cases h
      exact .inl ⟨ch, d, m, rfl, hch, rfl⟩
  | setdir dir =>
    by_cases hdir : dir = 0b10#2
    · subst hdir
      cases h
      exact .inr ⟨rfl, rfl⟩
    · rw [exec_setdir hdir] at h
      cases h
  | stick =>
    by_cases h0 : s.tempoCounter = 0#16
    · rw [exec_stick_expiry h0] at h
      cases h
    · rw [exec_stick_count h0] at h
      cases h
  | _ => cases h

/-- What stands on the ports has no effect on a refusal. -/
theorem exec_setOut_refused {r : Refusal} (h : exec i s = .refused r) (o : Outputs) :
    exec i { s with out := o } = .refused r := by
  obtain ⟨ch, d, m, rfl, hch, rfl⟩ | ⟨rfl, rfl⟩ := exec_refused_cases h
  · exact exec_pwrite_absent hch
  · rfl

/-- What stands on the ports before an operation has no effect on the next state but for its ports. -/
theorem exec_setOut_next (h : exec i s = .next t) (o : Outputs) :
    ∃ o', exec i { s with out := o } = .next { t with out := o' } := by
  obtain ⟨rfl, rfl⟩ | ⟨rfl, hsend, rfl⟩ | ⟨rfl, hquiet, rfl⟩ | ⟨rfl, hcount, rfl⟩ | ⟨rfl, hcount, rfl⟩ |
    ⟨ch, d, m, rfl, hch, rfl⟩ | ⟨dir, rfl, hdir, rfl⟩ | ⟨_, rfl, rfl⟩ | ⟨_, rfl, rfl⟩ | ⟨_, rfl, rfl⟩ | ⟨rfl, rfl⟩ :=
    exec_next_cases h
  · exact ⟨o, rfl⟩
  · exact ⟨_, (exec_ftick_of_underflow (s := { s with out := o }) hsend).trans
      (congrArg _ (s.stepChannels.send_setOut { o with changed := changedFlags s.ch }))⟩
  · exact ⟨_, exec_ftick_of_no_underflow hquiet⟩
  · exact ⟨o, exec_stick_count hcount⟩
  · exact ⟨o, exec_stick_expiry hcount⟩
  · exact ⟨o, exec_pwrite hch⟩
  · exact ⟨o, exec_setdir hdir⟩
  · exact ⟨o, rfl⟩
  · exact ⟨o, rfl⟩
  · exact ⟨_, rfl⟩
  · exact ⟨_, rfl⟩

theorem freqConv_congr {c c' : Config} (f : FreqWord) (hL : c.tableLen = c'.tableLen) (hR : c.tickRate = c'.tickRate) :
    freqConv c f = freqConv c' f := by
  simp only [freqConv, convNum, convDen, hL, hR]

/-- FCONV and another operation, in either order, end alike: FCONV answers, and to the other operation the state after it
is the state before it. -/
theorem fconv_commutes (s : State) (f : FreqWord) (i : Instr) :
    sameUpToPorts (execAll [.fconv f, i] s) (execAll [i, .fconv f] s) := by
  rw [execAll_cons _ (exec_fconv f s), execAll_singleton]
  cases h : exec i s with
  | next t =>
    obtain ⟨o, ho⟩ := exec_setOut_next h { s.out with conv := some (freqConv s.cfg f) }
    rw [ho, execAll_cons _ h, execAll_singleton, exec_fconv]
    rfl
  | fault r => cases r
  | refused r =>
    rw [exec_setOut_refused h, execAll_cons_eq, h]
    rfl

/-- Settles O32: `freqConv` reads L and R only, and FCONV writes the ports only. -/
theorem fconvIsPureAndCommutes : Obligations.FconvIsPureAndCommutes :=
  ⟨fun _ _ f hL hR => freqConv_congr f hL hR, fconv_commutes, fun _ _ => rfl⟩

end Sys2Proof.Machine
end

section
/-! PROOFS. One slow tick (42_pattern_sequencer.md R140 to R142, R147, R149): a count or an expiry, and what either leaves
alone. -/

namespace Sys2Proof.Machine

variable {s t : State} {c : Nat} {x : Channel}

/-! The count -/

/-- Settles O12: the counting case of STICK, as a number. -/
theorem stickCountsDown : Obligations.StickCountsDown := by
  intro s h0
  have hnum : (s.tempoCounter - 1#16).toNat + 1 = s.tempoCounter.toNat := by
    have hne : s.tempoCounter.toNat ≠ 0 := fun h => h0 (BitVec.eq_of_toNat_eq h)
    bv_omega
  exact ⟨_, exec_stick_count h0, hnum, rfl⟩

/-! The load of one channel -/

theorem Channel.load_counter_toNat (x : Channel) (p : PatternStep) :
    (x.load p).counter.toNat = min x.counter.toNat p.divisor.toNat :=
  clampCounter_toNat x.counter p.divisor

theorem Channel.load_counter_le_divisor (x : Channel) (p : PatternStep) : (x.load p).counter ≤ (x.load p).divisor :=
  clampCounter_le x.counter p.divisor

theorem Channel.load_counter_lowered {p : PatternStep} (h : p.divisor < x.counter) :
    (x.load p).counter = p.divisor := by
  apply BitVec.eq_of_toNat_eq
  rw [Channel.load_counter_toNat, Nat.min_eq_right (Nat.le_of_lt (BitVec.lt_def.1 h))]

theorem Channel.load_counter_kept {p : PatternStep} (h : x.counter ≤ p.divisor) : (x.load p).counter = x.counter :=
  if_pos h

theorem Channel.load_counter_rest {p : PatternStep} (h : p.divisor = 0#16) : (x.load p).counter = 0#16 := by
  apply BitVec.eq_of_toNat_eq
  rw [Channel.load_counter_toNat, h]
  exact Nat.min_zero _

/-- A running channel in range underflows at the tick its counter names, within its divisor. -/
theorem Channel.exists_underflow (l : Nat) (hd : x.divisor ≠ 0#16) (hc : x.counter ≤ x.divisor) :
    ∃ k ≤ x.divisor.toNat, ((Channel.chStep l)^[k] x).underflows = true :=
  ⟨x.counter.toNat, BitVec.le_def.1 hc, (Channel.iterate_underflows_iff l hd hc (BitVec.le_def.1 hc)).2 rfl⟩

/-- Settles O17: the channel is loaded from its pair, and the clamped counter is in range, so its underflow comes. -/
theorem loadClampsCounterAndKeepsPhase : Obligations.LoadClampsCounterAndKeepsPhase := by
  intro s t c x h0 h hx
  rw [exec_stick_expiry h0] at h
  cases h
  exact ⟨_, State.expiry_getElem? hx, rfl, rfl, Channel.load_counter_lowered, Channel.load_counter_kept,
    Channel.load_counter_rest, fun hd => Channel.exists_underflow _ hd (Channel.load_counter_le_divisor _ _)⟩

/-! The expiry -/

/-- Settles O13: the registers of `State.expiry`, the advanced index as the residue and the counter as a minimum. -/
theorem stickExpiryReloadsLoadsAndAdvances : Obligations.StickExpiryReloadsLoadsAndAdvances := by
  intro s h0 hN
  exact ⟨s.expiry, exec_stick_expiry h0, rfl, advanceIndex_cast _ _ hN, exec_ch_length (exec_stick_expiry h0) (by simp),
    fun c x hx => ⟨_, State.expiry_getElem? hx, rfl, rfl, Channel.load_counter_toNat _ _, rfl⟩⟩

/-- Settles O14: the index advance of the expiry, direction by direction. -/
theorem indexAdvanceWrapsAtBothEnds : Obligations.IndexAdvanceWrapsAtBothEnds := by
  intro s t h0 hidx h
  rw [exec_stick_expiry h0] at h
  cases h
  refine ⟨advanceIndex_cast _ _ (Nat.zero_lt_of_lt hidx), fun hdir => ?_, fun hdir => ?_, fun hdir => ?_⟩ <;>
    rw [State.expiry_patternIndex, hdir]
  · exact advanceIndex_forward hidx
  · exact advanceIndex_backward hidx
  · exact advanceIndex_halted hidx

/-! What a slow tick leaves alone -/

theorem exec_stick_out (h : exec .stick s = .next t) : t.out = s.out := by
  by_cases h0 : s.tempoCounter = 0#16
  · rw [exec_stick_expiry h0] at h
    cases h
    rfl
  · rw [exec_stick_count h0] at h
    cases h
    rfl

/-- Settles O18: a slow tick writes no phase, no line, no port and no field of the host. -/
theorem stickTouchesNothingElse : Obligations.StickTouchesNothingElse := by
  intro s t h
  obtain ⟨hdata, hclk, hlatch, htrace, -⟩ := exec_keeps_wire h (by simp) (by simp)
  obtain ⟨hdir, hperiod, haux, hpat⟩ := exec_tick_keeps_host_fields h (.inr rfl)
  obtain ⟨hcfg, hin⟩ := exec_cfg_inputs h
  exact ⟨fun c x hx => exec_stick_phasePosition h hx, htrace, hdata, hclk, hlatch, exec_stick_out h,
    State.patRead_eq_of_exec h hpat, hdir, hperiod, haux, hcfg, hin⟩

end Sys2Proof.Machine
end

section
/-! PROOFS. Runs of slow ticks (42_pattern_sequencer.md R143, R146, R148): a count runs out, the next tick is the expiry, so
P + 1 ticks are one expiry and the whole count it started. -/

namespace Sys2Proof.Machine

variable {s : State}

/-! The count in progress -/

/-- As many slow ticks as the tempo counter run it out. -/
theorem execAll_sticks_countdown (s : State) :
    execAll (List.replicate s.tempoCounter.toNat .stick) s = .next { s with tempoCounter := 0#16 } := by
  rw [execAll_sticks_count _ s le_rfl]
  simp

/-- The slow tick after the count is an expiry. -/
theorem execAll_sticks_to_expiry (s : State) :
    execAll (List.replicate (s.tempoCounter.toNat + 1) .stick) s =
      .next (State.expiry { s with tempoCounter := 0#16 }) := by
  rw [List.replicate_succ', execAll_append _ (execAll_sticks_countdown s), execAll_singleton]
  exact exec_stick_expiry rfl

/-- A run of slow ticks that starts with an expiry. -/
theorem execAll_sticks_succ_of_expiring (h0 : s.tempoCounter = 0#16) (n : Nat) :
    execAll (List.replicate (n + 1) .stick) s = execAll (List.replicate n .stick) s.expiry :=
  execAll_cons _ (exec_stick_expiry h0)

/-- Settles O16: an expiry, then the count it has loaded, then the next expiry. -/
theorem tempoPeriodLaw : Obligations.TempoPeriodLaw := by
  intro s h0
  constructor
  · intro j hj
    rw [execAll_sticks_succ_of_expiring h0]
    exact execAll_sticks_count j s.expiry hj
  · rw [execAll_sticks_succ_of_expiring h0]
    exact execAll_sticks_to_expiry s.expiry

/-! One period -/

/-- The state after an expiry and the whole count it has loaded, about to expire again. -/
def State.afterPeriod (s : State) : State := { s.expiry with tempoCounter := 0#16 }

theorem execAll_sticks_period (h0 : s.tempoCounter = 0#16) :
    execAll (List.replicate (s.tempoPeriod.toNat + 1) .stick) s = .next s.afterPeriod := by
  rw [execAll_sticks_succ_of_expiring h0]
  exact execAll_sticks_countdown s.expiry

/-- A halted sequencer ends a period at the index it began with. -/
theorem State.afterPeriod_patternIndex_of_halted (hdir : s.stepDirection = 0b00#2)
    (hidx : s.patternIndex < s.cfg.patternLen) : s.afterPeriod.patternIndex = s.patternIndex := by
  rw [State.afterPeriod, State.expiry_patternIndex, hdir, advanceIndex_halted hidx]

/-- Settles O19: the PWRITE after one halted period lands on the index the next expiry loads. -/
theorem haltedEditHeardAtNextExpiry : Obligations.HaltedEditHeardAtNextExpiry := by
  intro s ch d m h0 hdir hidx hlen hch
  have hstay := State.afterPeriod_patternIndex_of_halted hdir hidx
  have hidx' : s.afterPeriod.patternIndex < s.afterPeriod.cfg.patternLen := hstay ▸ hidx
  have hlen' : ch.toNat < s.afterPeriod.ch.length := by simpa [State.afterPeriod, hlen] using hch
  have hedit : exec (.pwrite ch d m) s.afterPeriod =
      .next (s.afterPeriod.patWrite s.afterPeriod.patternIndex ch.toNat ⟨d, m⟩) := exec_pwrite hch
  have hpair := State.patRead_patWrite_current (s := s.afterPeriod) (c := ch.toNat) ⟨d, m⟩ hch hch hidx'
  rw [if_pos rfl] at hpair
  refine ⟨State.expiry (s.afterPeriod.patWrite s.afterPeriod.patternIndex ch.toNat ⟨d, m⟩), _, ?run, ?index,
    State.expiry_getElem? (List.getElem?_eq_getElem hlen'), congrArg PatternStep.divisor hpair,
    congrArg PatternStep.multiplier hpair⟩
  case run =>
    rw [execAll_append _ (execAll_sticks_period h0), execAll_cons _ hedit, execAll_singleton]
    exact exec_stick_expiry rfl
  case index => exact (congrArg _ hdir).trans ((advanceIndex_halted hidx').trans hstay)

/-! Several periods -/

theorem execAll_sticks_periods_succ (k : Nat) (h0 : s.tempoCounter = 0#16) :
    execAll (List.replicate ((k + 1) * (s.tempoPeriod.toNat + 1)) .stick) s =
      execAll (List.replicate (k * (s.tempoPeriod.toNat + 1)) .stick) s.afterPeriod := by
  rw [Nat.succ_mul, Nat.add_comm, List.replicate_add, execAll_append _ (execAll_sticks_period h0)]

/-- `k` periods are `k` advances of the index. -/
theorem execAll_sticks_periods (k : Nat) (h0 : s.tempoCounter = 0#16) (hidx : s.patternIndex < s.cfg.patternLen) :
    ∃ t, execAll (List.replicate (k * (s.tempoPeriod.toNat + 1)) .stick) s = .next t ∧ t.tempoCounter = 0#16 ∧
      (t.patternIndex : Int) = ((s.patternIndex : Int) + k * dirValue s.stepDirection) % (s.cfg.patternLen : Int) := by
  induction k generalizing s with
  | zero => exact ⟨s, by simp, h0, by rw [Int.emod_eq_of_lt] <;> omega⟩
  | succ k ih =>
    have hN : 0 < s.cfg.patternLen := Nat.zero_lt_of_lt hidx
    have hadvance : (s.afterPeriod.patternIndex : Int) =
        ((s.patternIndex : Int) + dirValue s.stepDirection) % (s.cfg.patternLen : Int) := advanceIndex_cast _ _ hN
    obtain ⟨t, hrun, hcount, hindex⟩ := ih (s := s.afterPeriod) rfl (advanceIndex_lt _ _ hN)
    refine ⟨t, (execAll_sticks_periods_succ k h0).trans hrun, hcount, ?_⟩
    calc (t.patternIndex : Int)
        = ((s.afterPeriod.patternIndex : Int) + k * dirValue s.stepDirection) % (s.cfg.patternLen : Int) := hindex
      _ = ((s.patternIndex : Int) + (k + 1 : Nat) * dirValue s.stepDirection) % (s.cfg.patternLen : Int) := by
        rw [hadvance, Int.emod_add_emod]
        push_cast
        ring_nf

/-- An index is reached after `k` periods exactly when it is that residue. -/
theorem exists_sticks_periods_iff (k : Nat) {j : Nat} (h0 : s.tempoCounter = 0#16)
    (hidx : s.patternIndex < s.cfg.patternLen) :
    (∃ t, execAll (List.replicate (k * (s.tempoPeriod.toNat + 1)) .stick) s = .next t ∧ t.patternIndex = j) ↔
      ((s.patternIndex : Int) + k * dirValue s.stepDirection) % (s.cfg.patternLen : Int) = j := by
  obtain ⟨t, hrun, -, hindex⟩ := execAll_sticks_periods k h0 hidx
  rw [hrun, ← hindex]
  simp

/-! The period of the index -/

theorem dirValue_isUnit {d : Direction} (hlegal : d ≠ 0b10#2) (hrun : d ≠ 0b00#2) : IsUnit (dirValue d) := by
  obtain h | rfl | rfl := direction_cases d hlegal
  · exact absurd h hrun
  · rw [dirValue_forward]
    exact isUnit_one
  · rw [dirValue_backward]
    exact isUnit_one.neg

/-- Steps of a unit reach the same residue exactly when their numbers agree modulo N. -/
theorem emod_add_mul_unit_eq_iff {d : Int} (hd : IsUnit d) (n i k k' : Int) :
    (i + k * d) % n = (i + k' * d) % n ↔ k % n = k' % n := by
  have hsub : i + k' * d - (i + k * d) = (k' - k) * d := by ring
  change i + k * d ≡ i + k' * d [ZMOD n] ↔ k ≡ k' [ZMOD n]
  rw [Int.modEq_iff_dvd, Int.modEq_iff_dvd, hsub, hd.dvd_mul_right]

theorem emod_add_mul_unit_eq_self_iff {d : Int} (hd : IsUnit d) {n i : Nat} (k : Nat) (hi : i < n) :
    ((i : Int) + k * d) % (n : Int) = i ↔ n ∣ k := by
  have hself : ((i : Int) + 0 * d) % (n : Int) = i := by rw [Int.emod_eq_of_lt] <;> omega
  calc ((i : Int) + k * d) % (n : Int) = i
      ↔ ((i : Int) + k * d) % (n : Int) = ((i : Int) + 0 * d) % (n : Int) := by rw [hself]
    _ ↔ (k : Int) % (n : Int) = 0 % (n : Int) := emod_add_mul_unit_eq_iff hd _ _ _ _
    _ ↔ n ∣ k := by rw [Int.zero_emod, ← Int.dvd_iff_emod_eq_zero, Int.natCast_dvd_natCast]

/-- N steps of a unit meet each residue once: the number of the step is the distance to it, itself taken modulo N. -/
theorem existsUnique_steps_to {d : Int} (hd : IsUnit d) {n j : Nat} (i : Int) (hj : j < n) :
    ∃! k : Nat, k < n ∧ (i + k * d) % (n : Int) = j := by
  obtain ⟨m, hm⟩ := Int.eq_ofNat_of_zero_le (Int.emod_nonneg ((j - i) * d) (b := (n : Int)) (by omega))
  have hmn : (m : Int) < n := hm ▸ Int.emod_lt_of_pos _ (by omega)
  have hreach : (i + m * d) % (n : Int) = j := by
    calc (i + m * d) % (n : Int)
        = (i + (j - i) * d * d) % (n : Int) := by rw [emod_add_mul_unit_eq_iff hd, ← hm, Int.emod_emod]
      _ = (j : Int) := by
        rw [Int.mul_assoc, Int.isUnit_mul_self hd, Int.mul_one, add_sub_cancel, Int.emod_eq_of_lt] <;> omega
  refine ⟨m, ⟨by omega, hreach⟩, fun k ⟨hk, hkj⟩ => ?_⟩
  have hmod := (emod_add_mul_unit_eq_iff hd _ _ _ _).1 (hkj.trans hreach.symm)
  rw [Int.emod_eq_of_lt, Int.emod_eq_of_lt] at hmod <;> omega

/-- Settles O15: the index after `k` periods is a residue, and a legal direction other than 0 is a unit. -/
theorem indexSequenceIsPeriodic : Obligations.IndexSequenceIsPeriodic := by
  intro s h0 hidx hlegal
  constructor
  · intro k
    obtain ⟨t, hrun, hcount, hindex⟩ := execAll_sticks_periods k h0 hidx
    refine ⟨t, hrun, hcount, hindex, fun hne => ?_⟩
    rw [← emod_add_mul_unit_eq_self_iff (dirValue_isUnit hlegal hne) k hidx, ← hindex, Int.natCast_inj]
  · intro hne j hj
    simp only [exists_sticks_periods_iff _ h0 hidx]
    exact existsUnique_steps_to (dirValue_isUnit hlegal hne) _ hj

end Sys2Proof.Machine
end

section
/-! PROOFS. The control registers stepDirection and tempoPeriod (42_pattern_sequencer.md R144, R145): only an expiry reads
them, so a value overwritten before the next expiry leaves no trace. -/

namespace Sys2Proof.Machine

variable {s t : State} {i : Instr}

/-! Other values in the two registers -/

/-- The state with a direction and a tempo period in place of its own. -/
def State.withControl (s : State) (d : Direction) (p : Tempo) : State := { s with stepDirection := d, tempoPeriod := p }

theorem State.send_withControl (s : State) (d : Direction) (p : Tempo) :
    (s.withControl d p).send = s.send.withControl d p :=
  (State.driveAll_setTempoPeriod { s with stepDirection := d } s.frameEvents p).trans
    (congrArg (fun u : State => { u with tempoPeriod := p }) (s.driveAll_setStepDirection s.frameEvents d))

theorem exec_withControl_refused {r : Refusal} (h : exec i s = .refused r) (d : Direction) (p : Tempo) :
    exec i (s.withControl d p) = .refused r := by
  obtain ⟨ch, _, _, rfl, hch, rfl⟩ | ⟨rfl, rfl⟩ := exec_refused_cases h
  · exact exec_pwrite_absent hch
  · rfl

/-- An operation that is no expiry does not read the two registers: its next state differs in them alone, and in neither
where they agreed before. -/
theorem exec_withControl_next (h : exec i s = .next t) (hs : i = .stick → s.tempoCounter ≠ 0#16) (d : Direction)
    (p : Tempo) :
    ∃ d' p', exec i (s.withControl d p) = .next (t.withControl d' p') ∧
      (d = s.stepDirection → d' = t.stepDirection) ∧ (p = s.tempoPeriod → p' = t.tempoPeriod) := by
  obtain ⟨rfl, rfl⟩ | ⟨rfl, hsend, rfl⟩ | ⟨rfl, hquiet, rfl⟩ | ⟨rfl, hcount, rfl⟩ | ⟨rfl, hcount, rfl⟩ |
    ⟨ch, _, _, rfl, hch, rfl⟩ | ⟨dir, rfl, hdir, rfl⟩ | ⟨q, rfl, rfl⟩ | ⟨_, rfl, rfl⟩ | ⟨_, rfl, rfl⟩ | ⟨rfl, rfl⟩ :=
    exec_next_cases h
  · exact ⟨d, p, rfl, id, id⟩
  · refine ⟨d, p, (exec_ftick_of_underflow (s := s.withControl d p) hsend).trans
      (congrArg _ (s.stepChannels.send_withControl d p)), ?_, ?_⟩ <;> simp
  · exact ⟨d, p, exec_ftick_of_no_underflow hquiet, id, id⟩
  · exact ⟨d, p, exec_stick_count hcount, id, id⟩
  · exact absurd hcount (hs rfl)
  · exact ⟨d, p, exec_pwrite hch, id, id⟩
  · exact ⟨dir, p, exec_setdir hdir, fun _ => rfl, id⟩
  · exact ⟨d, q, rfl, id, fun _ => rfl⟩
  · exact ⟨d, p, rfl, id, id⟩
  · exact ⟨d, p, rfl, id, id⟩
  · exact ⟨0b00#2, 0#16, rfl, fun _ => rfl, fun _ => rfl⟩

/-- A run without an expiry that ends in an overwrite: a register that differed is the one overwritten. After a RESET in
the run neither differs. -/
theorem execAll_concat_withControl {is : List Instr} {last : Instr} {d : Direction} {p : Tempo}
    (hd : d = s.stepDirection ∨ ∃ b, last = .setdir b) (hp : p = s.tempoPeriod ∨ ∃ q, last = .settempo q)
    (hc : is.count .stick ≤ s.tempoCounter.toNat) :
    execAll (is ++ [last]) (s.withControl d p) = execAll (is ++ [last]) s := by
  induction is generalizing s d p with
  | nil =>
    rw [List.nil_append, execAll_singleton, execAll_singleton]
    obtain rfl | ⟨b, rfl⟩ := hd
    · obtain rfl | ⟨q, rfl⟩ := hp <;> rfl
    · obtain rfl | ⟨q, hq⟩ := hp
      · rfl
      · cases hq
  | cons i is ih =>
    rw [List.cons_append]
    cases h : exec i s with
    | fault r => cases r
    | refused r => rw [execAll_cons_eq, execAll_cons_eq, exec_withControl_refused h, h]
    | next t =>
      by_cases hr : i = .reset
      · subst hr
        cases h
        rfl
      · obtain ⟨hs, hc⟩ := exec_stick_budget h hr hc
        obtain ⟨d', p', h', hd', hp'⟩ := exec_withControl_next h hs d p
        rw [execAll_cons _ h', execAll_cons _ h, ih (hd.imp_left hd') (hp.imp_left hp') hc]

/-! Requests -/

theorem decode_of_encode_toNat {n : Nat} (hwf : i.WellFormed = true) (h : (encode i).toNat = n) :
    decode (BitVec.ofNat 32 n) = .ok i := by
  rw [← h, BitVec.ofNat_toNat, BitVec.setWidth_eq]
  exact decodeOfEncodeIsTheOperation i hwf

/-- A cycle with no tick, no conversion and no reset requests its host writes (10_state.md R37). -/
theorem cycleRequests_host_only (o : TickOrder) {p : PortCycle} (hrst : p.rst = false) (hfast : p.fastTick = false)
    (hslow : p.slowTick = false) (hconv : p.convReq = false) : cycleRequests o p = orNop (hostRequests p) := by
  rw [cycleRequests_of_not_rst o hrst]
  cases o <;> simp [tickRequests, convRequests, hfast, hslow, hconv]

theorem cycleRequests_setdir_only (o : TickOrder) {p : PortCycle} (hdir : p.dirWr = true)
    (hlow : true ∉ [p.rst, p.fastTick, p.slowTick, p.patWr, p.tempoWr, p.auxWr, p.convReq]) :
    cycleRequests o p = [.setdir p.dirVal] := by
  simp only [List.mem_cons, List.not_mem_nil, or_false, not_or, eq_comm (a := true), Bool.not_eq_true] at hlow
  obtain ⟨hrst, hfast, hslow, hpat, htempo, haux, hconv⟩ := hlow
  rw [cycleRequests_host_only o hrst hfast hslow hconv]
  simp [hostRequests, orNop, hdir, hpat, htempo, haux]

theorem cycleRequests_settempo_only (o : TickOrder) {p : PortCycle} (htempo : p.tempoWr = true)
    (hlow : true ∉ [p.rst, p.fastTick, p.slowTick, p.patWr, p.dirWr, p.auxWr, p.convReq]) :
    cycleRequests o p = [.settempo p.tempoVal] := by
  simp only [List.mem_cons, List.not_mem_nil, or_false, not_or, eq_comm (a := true), Bool.not_eq_true] at hlow
  obtain ⟨hrst, hfast, hslow, hpat, hdir, haux, hconv⟩ := hlow
  rw [cycleRequests_host_only o hrst hfast hslow hconv]
  simp [hostRequests, orNop, hdir, hpat, htempo, haux]

/-! The statements -/

theorem execAll_setdir_stick {dir : Direction} (hdir : dir ≠ 0b10#2) (h0 : s.tempoCounter = 0#16) :
    execAll [.setdir dir, .stick] s = .next (State.expiry { s with stepDirection := dir }) := by
  rw [execAll_cons _ (exec_setdir hdir), execAll_singleton]
  exact exec_stick_expiry h0

theorem execAll_setdir_overwritten {a b : Direction} {is : List Instr} (ha : a ≠ 0b10#2)
    (hc : is.count .stick ≤ s.tempoCounter.toNat) :
    execAll (.setdir a :: (is ++ [.setdir b])) s = execAll (is ++ [.setdir b]) s := by
  rw [execAll_cons _ (exec_setdir ha)]
  exact execAll_concat_withControl (d := a) (p := s.tempoPeriod) (.inr ⟨b, rfl⟩) (.inl rfl) hc

theorem execAll_settempo_overwritten {q p : Tempo} {is : List Instr} (hc : is.count .stick ≤ s.tempoCounter.toNat) :
    execAll (.settempo q :: (is ++ [.settempo p])) s = execAll (is ++ [.settempo p]) s := by
  rw [execAll_cons _ (exec_settempo q s)]
  exact execAll_concat_withControl (d := s.stepDirection) (p := q) (.inl rfl) (.inr ⟨p, rfl⟩) hc

/-- Settles O20: SETDIR is one write, read by the next expiry, and overwritten before it leaves no trace. -/
theorem setdirActsOnlyAtExpiries : Obligations.SetdirActsOnlyAtExpiries := by
  refine ⟨fun s dir hdir => exec_setdir hdir, fun s => exec_setdir_reserved, fun s dir hdir h0 hN => ?expiry,
    fun s a b mid ha _ hc => execAll_setdir_overwritten ha hc, fun dir hdir => ?word,
    fun o p hwr hlow => cycleRequests_setdir_only o hwr hlow⟩
  case expiry => exact ⟨_, execAll_setdir_stick hdir h0, advanceIndex_cast _ _ hN⟩
  case word => exact decode_of_encode_toNat (by simpa [Instr.WellFormed] using hdir) (encode_setdir_toNat dir)

/-- Settles O21: SETTEMPO is one write, the count in progress runs out as it stood, the reload after it reads the write. -/
theorem settempoNeverActsMidCount : Obligations.SettempoNeverActsMidCount := by
  intro s p
  refine ⟨exec_settempo p s, ?count, ?reload, fun q mid hc => execAll_settempo_overwritten hc,
    decode_of_encode_toNat rfl (encode_settempo_toNat p), fun o c hwr hval hlow => ?strobe⟩
  case count => exact execAll_sticks_countdown { s with tempoPeriod := p }
  case reload => exact ⟨_, execAll_sticks_to_expiry { s with tempoPeriod := p }, rfl⟩
  case strobe => rw [cycleRequests_settempo_only o hwr hlow, hval]

end Sys2Proof.Machine
end

section
/-! PROOFS. The serial transmitter (43_serial_transmitter.md): the bytes of a frame (R161), its clock and latch pulses
(R164), what a receiver commits of it (R167), and the auxiliary register (R166). -/

namespace Sys2Proof.Machine

variable {s t : State} {i : Instr}

/-! The bytes of a frame -/

theorem State.frameBytes_getElem? {j : Nat} {l : List ByteSource} (hl : s.cfg.lines[j]? = some l) :
    s.frameBytes[j]? = some (l.map s.sourceByte) := by
  rw [State.frameBytes, List.getElem?_map, hl, Option.map_some]

theorem map_sourceByte_getElem? {l : List ByteSource} {k : Nat} {src : ByteSource} (hsrc : l[k]? = some src) :
    (l.map s.sourceByte)[k]? = some (s.sourceByte src) := by
  rw [List.getElem?_map, hsrc, Option.map_some]

/-- Settles O52: a line's bytes are its sources, each read by `sourceByte`. -/
theorem frameBytesComeFromTheirSources : Obligations.FrameBytesComeFromTheirSources := by
  refine fun s => ⟨fun _ => rfl, rfl, fun _ => rfl, s.frameBytes_length, fun j l hl => ?_, rfl⟩
  refine ⟨_, State.frameBytes_getElem? hl, List.length_map _, fun k src b hsrc hb => ?_⟩
  rw [map_sourceByte_getElem? hsrc, State.sourceByte_eq_of_cases hb]

/-! The clock and latch pulses of a frame -/

/-- Each bit time pulses the clock once. -/
theorem bitGroups_count_clk (streams : List (List Bool)) (ks : List Nat) :
    (ks.flatMap (bitGroup streams)).count ⟨.clk, true⟩ = ks.length := by
  induction ks with
  | nil => rfl
  | cons k ks ih =>
    obtain ⟨hclk, -⟩ := bitGroup_clocks streams k
    rw [List.flatMap_cons, List.count_append, hclk, ih, List.length_cons, Nat.add_comm]

/-- No bit time drives the latch. -/
theorem bitGroups_filter_latch (streams : List (List Bool)) (ks : List Nat) :
    (ks.flatMap (bitGroup streams)).filter (fun e => e.line = .latch) = [] := by
  rw [List.filter_flatMap, List.flatMap_eq_nil_iff]
  intro k _
  obtain ⟨-, hlatch⟩ := bitGroup_clocks streams k
  exact hlatch

theorem State.frameEvents_pulses {kk : Nat} (hne : s.cfg.lines ≠ []) (hkk : ∀ l ∈ s.cfg.lines, l.length = kk) :
    s.frameEvents.count ⟨.clk, true⟩ = 8 * kk ∧
      s.frameEvents.filter (fun e => e.line = .latch) = latchPulse ∧ ∃ bits, s.frameEvents = bits ++ latchPulse := by
  rw [State.frameEvents_eq hne hkk]
  refine ⟨?_, ?_, _, rfl⟩
  · rw [List.count_append, bitGroups_count_clk, List.length_range]
    rfl
  · rw [List.filter_append, bitGroups_filter_latch]
    rfl

/-- Settles O35: the events an FTICK appends are a whole frame or none, and a frame is 8K bit times, then the latch
pulse. -/
theorem oneLatchPulsePerFrameAfterAllClocks : Obligations.OneLatchPulsePerFrameAfterAllClocks := by
  refine ⟨fun s t hne hkk h => ?_, fun s t i hf hr h => exec_keeps_trace h hf hr⟩
  obtain ⟨t', h', -, hframe, hquiet⟩ := ftickSendsOneFrameIffUnderflow s
  rw [h] at h'
  cases h'
  cases hsend : anyChanged s.ch with
  | true =>
    obtain ⟨hcfg, -⟩ := exec_cfg_inputs h
    rw [← hcfg] at hne hkk ⊢
    exact ⟨t.frameEvents, hframe ((anyChanged_iff s.ch).1 hsend), nofun, fun _ => State.frameEvents_pulses hne hkk⟩
  | false =>
    obtain ⟨htrace, -⟩ := hquiet ((anyChanged_eq_false_iff s.ch).1 hsend)
    exact ⟨[], by rw [htrace, List.append_nil], fun _ => rfl, nofun⟩

/-! What a receiver commits -/

/-- Between operations a receiver sees clock and latch at 0 and holds no uncommitted bit (10_state.md R31). -/
theorem State.Inv.receiver_atRest {j : Nat} (h : s.Inv) (hj : j < s.cfg.nlines) :
    (receive j s.trace).clk = false ∧ (receive j s.trace).latch = false ∧ (receive j s.trace).shift = [] := by
  obtain ⟨-, -, -, -, ⟨-, -, hclk, hclk0, hlatch, hlatch0⟩, hframes⟩ := h
  obtain ⟨-, hrclk, hrlatch⟩ := receive_levels j s.trace
  exact ⟨by rw [hrclk, ← hclk, hclk0], by rw [hrlatch, ← hlatch, hlatch0], hframes j hj⟩

/-- After a trace that leaves the receivers at rest, the frame of a state is committed whole and alone. -/
theorem State.Inv.committedFrames_append {j : Nat} (h : s.Inv) (hj : j < s.cfg.nlines) (hcfg : t.cfg = s.cfg) :
    committedFrames j (s.trace ++ t.frameEvents) =
      committedFrames j s.trace ++ [lineStream s.cfg.bitOrder (t.frameBytes.getD j [])] := by
  obtain ⟨hclk, hlatch, hshift⟩ := h.receiver_atRest hj
  obtain ⟨hwf, -⟩ := h
  rw [← hcfg] at hj hwf ⊢
  obtain ⟨d, hd⟩ := foldl_see_transmit j t.frameBytes t.cfg.bitOrder (receive j s.trace)
    (hj.trans_eq t.frameBytes_length.symm) (fun _ hl => State.length_of_mem_frameBytes hwf hl) hclk hlatch hshift
  rw [committedFrames, receive_append, State.frameEvents, hd, committedFrames]

/-- Settles O36: an FTICK appends one whole frame to a trace that leaves the receivers at rest, or nothing. -/
theorem receiverCommitsExactlyTheFrame : Obligations.ReceiverCommitsExactlyTheFrame := by
  intro s j hs hj
  obtain ⟨t, h, -, hframe, hquiet⟩ := ftickSendsOneFrameIffUnderflow s
  obtain ⟨hcfg, -⟩ := exec_cfg_inputs h
  refine ⟨t, h, fun hsome => ?_, fun hnone => ?_⟩
  · rw [hframe hsome, hs.committedFrames_append hj hcfg]
  · obtain ⟨htrace, -⟩ := hquiet hnone
    rw [htrace]

/-! The auxiliary register: who writes it -/

theorem exec_keeps_auxReg (h : exec i s = .next t) (hr : i ≠ .reset) (ha : ∀ x, i ≠ .setaux x) :
    t.auxReg = s.auxReg := by
  obtain ⟨-, rfl⟩ | ⟨-, -, rfl⟩ | ⟨-, -, rfl⟩ | ⟨-, -, rfl⟩ | ⟨-, -, rfl⟩ | ⟨_, _, _, -, -, rfl⟩ | ⟨_, -, -, rfl⟩ |
    ⟨_, -, rfl⟩ | ⟨x, hx, -⟩ | ⟨_, -, rfl⟩ | ⟨hreset, -⟩ := exec_next_cases h
  · rfl
  · simp
  iterate 6 rfl
  · exact absurd hx (ha x)
  · rfl
  · exact absurd hreset hr

theorem execAll_keeps_auxReg {is : List Instr} (h : execAll is s = .next t) (hr : .reset ∉ is)
    (ha : ∀ x, .setaux x ∉ is) : t.auxReg = s.auxReg := by
  induction is generalizing s with
  | nil => cases h; rfl
  | cons i is ih =>
    obtain ⟨u, hu, h⟩ := execAll_cons_next h
    have hu : u.auxReg = s.auxReg :=
      exec_keeps_auxReg hu (List.ne_of_not_mem_cons hr).symm (fun x => (List.ne_of_not_mem_cons (ha x)).symm)
    rw [ih h (List.not_mem_of_not_mem_cons hr) (fun x => List.not_mem_of_not_mem_cons (ha x)), hu]

/-! The auxiliary register: who reads it, under either AUX_SOURCE -/

theorem State.auxByte_of_auxReg (hsrc : s.cfg.auxSource = .auxReg) : s.auxByte = s.auxReg := by
  rw [State.auxByte, hsrc]

theorem State.auxByte_setAuxReg (hsrc : s.cfg.auxSource = .patternIndex) (v : Byte) :
    State.auxByte { s with auxReg := v } = s.auxByte := by
  simp only [State.auxByte, hsrc]

theorem State.send_setAuxReg (hsrc : s.cfg.auxSource = .patternIndex) (v : Byte) :
    State.send { s with auxReg := v } = { s.send with auxReg := v } := by
  have hframe : State.frameEvents { s with auxReg := v } = s.frameEvents :=
    State.frameEvents_congr rfl rfl (State.auxByte_setAuxReg hsrc v)
  rw [State.send, hframe, State.driveAll_setAuxReg, State.send]

/-- When frames carry the index, no operation reads the auxiliary register: its next state differs in that field alone. -/
theorem exec_setAuxReg_next (hsrc : s.cfg.auxSource = .patternIndex) (h : exec i s = .next t) (v : Byte) :
    ∃ v', exec i { s with auxReg := v } = .next { t with auxReg := v' } := by
  obtain ⟨rfl, rfl⟩ | ⟨rfl, hsend, rfl⟩ | ⟨rfl, hquiet, rfl⟩ | ⟨rfl, hcount, rfl⟩ | ⟨rfl, hcount, rfl⟩ |
    ⟨_, _, _, rfl, hch, rfl⟩ | ⟨_, rfl, hdir, rfl⟩ | ⟨_, rfl, rfl⟩ | ⟨x, rfl, rfl⟩ | ⟨_, rfl, rfl⟩ | ⟨rfl, rfl⟩ :=
    exec_next_cases h
  · exact ⟨v, rfl⟩
  · exact ⟨v, (exec_ftick_of_underflow (s := { s with auxReg := v }) hsend).trans
      (congrArg _ (State.send_setAuxReg (s := s.stepChannels) hsrc v))⟩
  · exact ⟨v, exec_ftick_of_no_underflow hquiet⟩
  · exact ⟨v, exec_stick_count hcount⟩
  · exact ⟨v, exec_stick_expiry hcount⟩
  · exact ⟨v, exec_pwrite hch⟩
  · exact ⟨v, exec_setdir hdir⟩
  · exact ⟨v, rfl⟩
  · exact ⟨x, rfl⟩
  · exact ⟨v, rfl⟩
  · exact ⟨0x00#8, rfl⟩

theorem execAll_setAuxReg_next {is : List Instr} (hsrc : s.cfg.auxSource = .patternIndex)
    (h : execAll is s = .next t) (v : Byte) :
    ∃ v', execAll is { s with auxReg := v } = .next { t with auxReg := v' } := by
  induction is generalizing s v with
  | nil => cases h; exact ⟨v, rfl⟩
  | cons i is ih =>
    obtain ⟨u, hu, h⟩ := execAll_cons_next h
    obtain ⟨hcfg, -⟩ := exec_cfg_inputs hu
    obtain ⟨v', hu'⟩ := exec_setAuxReg_next hsrc hu v
    rw [execAll_cons is hu']
    exact ih (hcfg ▸ hsrc) h v'

/-! SETAUX -/

/-- An FTICK puts the auxiliary register at every AUX source of its frame (30_encoding.md R80). -/
theorem exec_ftick_auxReg (hsrc : s.cfg.auxSource = .auxReg) :
    ∃ t, exec .ftick s = .next t ∧ t.auxByte = s.auxReg ∧
      (∀ (j k : Nat) (l : List ByteSource), s.cfg.lines[j]? = some l → l[k]? = some .aux →
        (t.frameBytes.getD j [])[k]? = some s.auxReg) ∧
      ((∃ x ∈ s.ch, x.divisor ≠ 0#16 ∧ x.counter = 0#16) →
        t.trace = s.trace ++ transmit t.frameBytes s.cfg.bitOrder) := by
  obtain ⟨t, h, -, hframe, -⟩ := ftickSendsOneFrameIffUnderflow s
  obtain ⟨hcfg, -⟩ := exec_cfg_inputs h
  have haux : t.auxByte = s.auxReg := by
    rw [State.auxByte_of_auxReg (hcfg ▸ hsrc), exec_keeps_auxReg h nofun nofun]
  refine ⟨t, h, haux, fun j k l hl hk => ?_, fun hsome => ?_⟩
  · rw [← hcfg] at hl
    rw [List.getD_eq_getElem?_getD, State.frameBytes_getElem? hl, Option.getD_some, map_sourceByte_getElem? hk]
    exact congrArg some haux
  · rw [hframe hsome, State.frameEvents, hcfg]

theorem cycleRequests_setaux_only (o : TickOrder) {p : PortCycle} (haux : p.auxWr = true)
    (hlow : true ∉ [p.rst, p.fastTick, p.slowTick, p.patWr, p.dirWr, p.tempoWr, p.convReq]) :
    cycleRequests o p = [.setaux p.auxVal] := by
  simp only [List.mem_cons, List.not_mem_nil, or_false, not_or, eq_comm (a := true), Bool.not_eq_true] at hlow
  obtain ⟨hrst, hfast, hslow, hpat, hdir, htempo, hconv⟩ := hlow
  rw [cycleRequests_host_only o hrst hfast hslow hconv]
  simp [hostRequests, orNop, haux, hpat, hdir, htempo]

/-- Settles O22: under AUX_REG the register is kept up to the FTICK and is the byte of its frame; under PATTERN_INDEX no
operation reads it. -/
theorem setauxWritesAuxiliaryRegister : Obligations.SetauxWritesAuxiliaryRegister := by
  intro s v
  refine ⟨_, exec_setaux v s, rfl, fun hsrc => ⟨?byte, fun is u hr ha h => ?frames⟩,
    fun hsrc => ⟨State.auxByte_setAuxReg hsrc v, fun is u h => ?unread⟩,
    decode_of_encode_toNat rfl (encode_setaux_toNat v), fun o p hwr hval hlow => ?strobe⟩
  case byte => exact State.auxByte_of_auxReg (s := { s with auxReg := v }) hsrc
  case frames =>
    have hreg : u.auxReg = v := execAll_keeps_auxReg h hr ha
    obtain ⟨(hcfg : u.cfg = s.cfg), -⟩ := execAll_cfg_inputs h
    rw [← hcfg, ← hreg]
    exact exec_ftick_auxReg (hcfg ▸ hsrc)
  case unread =>
    obtain ⟨v', hw⟩ := execAll_setAuxReg_next hsrc h v
    exact ⟨_, hw, rfl⟩
  case strobe => rw [cycleRequests_setaux_only o hwr hlow, hval]

end Sys2Proof.Machine
end

section
/-! PROOFS. The pattern write point and NOP (44_pattern_write.md R180, R183, R184). -/

namespace Sys2Proof.Machine

variable {s : State}

/-! Requests -/

/-- A cycle with no strobe high but perhaps `pat_wr` requests its PWRITE, or a NOP (10_state.md R37). -/
theorem cycleRequests_of_others_low (o : TickOrder) {p : PortCycle}
    (hlow : true ∉ [p.rst, p.fastTick, p.slowTick, p.dirWr, p.tempoWr, p.auxWr, p.convReq]) :
    cycleRequests o p = if p.patWr then [.pwrite p.patCh p.patDiv p.patMul] else [.nop] := by
  simp only [List.mem_cons, List.not_mem_nil, or_false, not_or, eq_comm (a := true), Bool.not_eq_true] at hlow
  obtain ⟨hrst, hfast, hslow, hdir, htempo, haux, hconv⟩ := hlow
  rw [cycleRequests_host_only o hrst hfast hslow hconv]
  cases hpat : p.patWr <;> simp [hostRequests, orNop, hpat, hdir, htempo, haux]

theorem cycleRequests_pwrite_only (o : TickOrder) {p : PortCycle} (hpat : p.patWr = true)
    (hlow : true ∉ [p.rst, p.fastTick, p.slowTick, p.dirWr, p.tempoWr, p.auxWr, p.convReq]) :
    cycleRequests o p = [.pwrite p.patCh p.patDiv p.patMul] := by
  rw [cycleRequests_of_others_low o hlow, if_pos hpat]

/-- A cycle with no strobe high is a NOP (44_pattern_write.md R183). -/
theorem cycleRequests_no_strobe (o : TickOrder) {p : PortCycle}
    (hlow : true ∉ [p.rst, p.fastTick, p.slowTick, p.patWr, p.dirWr, p.tempoWr, p.auxWr, p.convReq]) :
    cycleRequests o p = [.nop] := by
  have hpat : ¬ p.patWr = true := fun h => hlow (by simp [h])
  have hothers : true ∉ [p.rst, p.fastTick, p.slowTick, p.dirWr, p.tempoWr, p.auxWr, p.convReq] :=
    fun h => hlow (((List.sublist_cons_self p.patWr _).append_left [p.rst, p.fastTick, p.slowTick]).subset h)
  rw [cycleRequests_of_others_low o hothers, if_neg hpat]

/-! The store -/

/-- Writing back the pair that reads at a place is no write, in canonical form (44_pattern_write.md R184). -/
theorem State.patWrite_patRead (h : Memory.wf s.cfg s.pattern) (i c : Nat) : s.patWrite i c (s.patRead i c) = s := by
  rw [State.patWrite, State.patRead, Memory.write_read_self h]

/-! The statements -/

/-- Settles O24: an answered PWRITE is one PatWrite at the current index, and a read at any place tells whether it is
the written one. -/
theorem pwriteReplacesOnePair : Obligations.PwriteReplacesOnePair := by
  refine fun s ch d m => ⟨fun hch hidx => ?write, exec_pwrite_absent,
    decode_of_encode_toNat rfl (encode_pwrite_toNat ch d m), fun o p hwr hpch hdiv hmul hlow => ?strobe⟩
  case write =>
    exact ⟨_, exec_pwrite hch, fun i c hi hc => State.patRead_patWrite _ hidx hi hch hc, rfl⟩
  case strobe => rw [cycleRequests_pwrite_only o hwr hlow, hpch, hdiv, hmul]

/-- Settles O27: PWRITE writes back the pair the canonical store already holds. -/
theorem rewritingTheStoredPairChangesNothing : Obligations.RewritingTheStoredPairChangesNothing := by
  intro s ch hwf hch
  rw [exec_pwrite hch, State.patWrite_patRead hwf]

/-- Settles O1: NOP answers its own state, and it is the word 0 and every cycle with no strobe high. -/
theorem nopChangesNothing : Obligations.NopChangesNothing :=
  ⟨exec_nop, decodeOfEncodeIsTheOperation .nop rfl, fun o _ => cycleRequests_no_strobe o⟩

end Sys2Proof.Machine
end

section
/-! PROOFS. Completion of operations (60_exceptions.md R190). -/

namespace Sys2Proof.Machine

/-- Settles O42: only the reserved direction and an absent channel stop an operation, and these are the illegal ones. -/
theorem legalOperationsAlwaysComplete : Obligations.LegalOperationsAlwaysComplete :=
  fun _ _ => exists_exec_iff_legalFor

end Sys2Proof.Machine
end

section
/-! PROOFS. The reset state (70_reset_and_hazards.md R220 to R222), and a block that rests (R230): a silent block stays as
it is until a load, and after RESET the sequencer stands at Pattern[0] about to expire. -/

namespace Sys2Proof.Machine

variable {s t : State} {i : Instr}

/-! A silent block -/

/-- Every channel rests (30_encoding.md R71). -/
def State.Silent (s : State) : Prop := ∀ x ∈ s.ch, x.divisor = 0#16

theorem State.resetWith_silent (c : Config) : (State.resetWith c).Silent := by
  intro x hx
  obtain rfl := List.eq_of_mem_replicate hx
  rfl

theorem State.Silent.no_flag (h : s.Silent) : true ∉ changedFlags s.ch := by
  intro hmem
  obtain ⟨x, hx, hunder⟩ := List.mem_map.1 hmem
  rw [Channel.underflows_silent (h x hx)] at hunder
  cases hunder

/-- An FTICK of a silent block only drives its flag ports (40_phase_accumulator.md R102). -/
theorem State.Silent.exec_ftick (h : s.Silent) :
    exec .ftick s = .next { s with out := { s.out with changed := changedFlags s.ch } } := by
  have hch : s.ch.map (Channel.chStep s.cfg.tableLen) = s.ch :=
    (List.map_congr_left fun x hx => Channel.chStep_silent _ (h x hx)).trans (List.map_id' s.ch)
  rw [exec_ftick_of_no_underflow ((anyChanged_eq_false_iff s.ch).2 fun x hx => .inl (h x hx)), State.stepChannels, hch]

/-- Fast ticks of a silent block leave its state but for the ports, and raise no flag. -/
theorem State.Silent.execAll_fticks (h : s.Silent) (hflags : true ∉ s.out.changed) (n : Nat) :
    ∃ o, execAll (List.replicate n .ftick) s = .next { s with out := o } ∧ true ∉ o.changed := by
  induction n generalizing s with
  | zero => exact ⟨s.out, rfl, hflags⟩
  | succ n ih =>
    have hsilent : State.Silent { s with out := { s.out with changed := changedFlags s.ch } } := h
    obtain ⟨o, hrun, ho⟩ := ih hsilent h.no_flag
    exact ⟨o, (execAll_cons _ h.exec_ftick).trans hrun, ho⟩

/-- An operation that neither loads nor resets a silent block writes no channel and drives no line. -/
theorem State.Silent.exec_keeps (h : s.Silent) (hrun : exec i s = .next t) (hr : i ≠ .reset)
    (hs : i = .stick → s.tempoCounter ≠ 0#16) : t.ch = s.ch ∧ t.SameWire s := by
  by_cases hf : i = .ftick
  · subst hf
    rw [h.exec_ftick] at hrun
    cases hrun
    exact ⟨rfl, rfl, rfl, rfl, rfl⟩
  · obtain ⟨hch, htrace, hdata, hclk, hlatch⟩ := exec_keeps_channels hrun hr hs hf
    exact ⟨hch, hdata, hclk, hlatch, htrace⟩

theorem State.SameWire.trans {u : State} (htu : t.SameWire u) (hus : u.SameWire s) : t.SameWire s := by
  obtain ⟨hdata, hclk, hlatch, htrace⟩ := htu
  obtain ⟨hdata', hclk', hlatch', htrace'⟩ := hus
  exact ⟨hdata.trans hdata', hclk.trans hclk', hlatch.trans hlatch', htrace.trans htrace'⟩

/-- A run without RESET and without an expiry drives no line of a silent block. -/
theorem State.Silent.execAll_sameWire {is : List Instr} (h : s.Silent) (hr : .reset ∉ is)
    (hc : is.count .stick ≤ s.tempoCounter.toNat) (hrun : execAll is s = .next t) : t.SameWire s := by
  induction is generalizing s with
  | nil => cases hrun; exact ⟨rfl, rfl, rfl, rfl⟩
  | cons i is ih =>
    obtain ⟨u, hu, hrun⟩ := execAll_cons_next hrun
    rw [List.mem_cons, not_or] at hr
    obtain ⟨hi, hr⟩ := hr
    obtain ⟨hs, hc⟩ := exec_stick_budget hu (Ne.symm hi) hc
    obtain ⟨hch, hwire⟩ := h.exec_keeps hu (Ne.symm hi) hs
    have husilent : u.Silent := by rwa [State.Silent, hch]
    exact (ih husilent hr hc hrun).trans hwire

/-- Settles O11: a silent block stays silent until a load, and no operation before it drives a line. -/
theorem silentBlockNeverTransmits : Obligations.SilentBlockNeverTransmits := by
  intro s t is hsilent hr hc hrun
  obtain ⟨hdata, hclk, hlatch, htrace⟩ := State.Silent.execAll_sameWire hsilent hr hc hrun
  exact ⟨htrace, hdata, hclk, hlatch⟩

/-! The reset state -/

theorem State.resetWith_no_flag (c : Config) : true ∉ (State.resetWith c).out.changed := by
  simp [State.resetWith, Outputs.quiet]

/-- Settles O40: the reset state is silent, with no flag raised, and its registers are in range. -/
theorem resetStateIsQuiet : Obligations.ResetStateIsQuiet := by
  intro c n
  constructor
  · obtain ⟨o, hrun, ho⟩ := (State.resetWith_silent c).execAll_fticks (State.resetWith_no_flag c) n
    exact ⟨_, hrun, rfl, ho⟩
  · intro hcfg
    obtain ⟨-, hchannels, -⟩ := State.resetWith_inv hcfg
    exact hchannels

/-- Settles O38: the reset state is where the invariant's induction over runs begins. -/
theorem resetMeetsTheInvariant : Obligations.ResetMeetsTheInvariant := fun _ hcfg => State.resetWith_inv hcfg

/-- A store with no pair listed reads as PATTERN_INIT, entry by entry (10_state.md R34). -/
theorem State.patRead_eq_of_patternInit {k c : Nat} {entry : List PatternStep} {p : PatternStep} (h : s.pattern = [])
    (hc : c < s.cfg.nch) (hentry : s.cfg.patternInit[k]? = some entry) (hp : entry[c]? = some p) :
    s.patRead k c = p := by
  obtain ⟨hk, -⟩ := List.getElem?_eq_some_iff.1 hentry
  rw [State.patRead_of_pattern_nil h, State.cellAt_eq c hk, initialStep_cellOf _ _ _ hc, List.getD_eq_getElem?_getD,
    List.getD_eq_getElem?_getD, hentry, Option.getD_some, hp, Option.getD_some]

/-- Settles O39: the registers of `State.resetWith`, the empty store read as PATTERN_INIT, and the two ways to ask for
a RESET. -/
theorem resetPutsEveryRegisterAtItsValue : Obligations.ResetPutsEveryRegisterAtItsValue := by
  intro s
  refine ⟨_, exec_reset s, rfl, rfl, rfl, rfl, rfl, rfl, rfl, fun k c entry p hc hentry hp => ?_, rfl, rfl, rfl, rfl,
    State.resetWith_no_flag s.cfg, decodeOfEncodeIsTheOperation .reset rfl, fun o p => cycleRequests_of_rst o⟩
  exact State.patRead_eq_of_patternInit rfl hc hentry hp

/-! The sequencer after RESET -/

/-- What each operation of a run keeps, the run keeps. -/
theorem execAll_preserves_of_mem {P : State → Prop} {is : List Instr}
    (hP : ∀ i ∈ is, ∀ s t, exec i s = .next t → P s → P t) (h : execAll is s = .next t) (hs : P s) : P t := by
  induction is generalizing s with
  | nil => cases h; exact hs
  | cons i is ih =>
    obtain ⟨u, hu, h⟩ := execAll_cons_next h
    exact ih (fun j hj => hP j (List.mem_cons_of_mem _ hj)) h (hP i List.mem_cons_self s u hu hs)

/-- The next STICK is an expiry of Pattern[0]. -/
def State.ExpiresAtZero (s : State) : Prop := s.tempoCounter = 0#16 ∧ s.patternIndex = 0

/-- The index is 0 and the direction register holds 0. -/
def State.HaltedAtZero (s : State) : Prop := s.patternIndex = 0 ∧ s.stepDirection = 0b00#2

theorem exec_keeps_expiresAtZero (h : exec i s = .next t) (hk : keepsChannelSettings i = true) (hs : s.ExpiresAtZero) :
    t.ExpiresAtZero := by
  obtain ⟨hcount, hidx, -, -⟩ := exec_keeps_sequencer h hk
  obtain ⟨hcount', hidx'⟩ := hs
  exact ⟨hcount.trans hcount', hidx.trans hidx'⟩

/-- A halted expiry keeps the index (42_pattern_sequencer.md R143). -/
theorem State.HaltedAtZero.expiry (h : s.HaltedAtZero) (hN : 0 < s.cfg.patternLen) : s.expiry.HaltedAtZero := by
  obtain ⟨hidx, hdir⟩ := h
  refine ⟨?_, hdir⟩
  rw [State.expiry_patternIndex, hidx, hdir, advanceIndex_halted hN]

/-- Only a SETDIR that is not 0 takes the sequencer away from Pattern[0]. -/
theorem exec_keeps_haltedAtZero (h : exec i s = .next t) (hdir : ∀ d, i = .setdir d → d = 0b00#2)
    (hN : 0 < s.cfg.patternLen) (hs : s.HaltedAtZero) : t.HaltedAtZero := by
  obtain ⟨-, rfl⟩ | ⟨-, -, rfl⟩ | ⟨-, -, rfl⟩ | ⟨-, -, rfl⟩ | ⟨-, -, rfl⟩ | ⟨_, _, _, -, -, rfl⟩ | ⟨d, hi, -, rfl⟩ |
    ⟨_, -, rfl⟩ | ⟨_, -, rfl⟩ | ⟨_, -, rfl⟩ | ⟨-, rfl⟩ := exec_next_cases h
  · exact hs
  · simpa [State.HaltedAtZero] using hs
  · exact hs
  · exact hs
  · exact hs.expiry hN
  · exact hs
  · obtain ⟨hidx, -⟩ := hs
    exact ⟨hidx, hdir d hi⟩
  iterate 3 exact hs
  · exact ⟨rfl, rfl⟩

/-- Every channel the block has is loaded from its pair by an expiry (42_pattern_sequencer.md R141). -/
theorem State.exists_expiry_channel {k : Nat} (hk : k < s.ch.length) : ∃ y, s.expiry.ch[k]? = some y ∧
    y.divisor = (s.patRead s.patternIndex k).divisor ∧ y.multiplier = (s.patRead s.patternIndex k).multiplier :=
  ⟨_, State.expiry_getElem? (List.getElem?_eq_getElem hk), rfl, rfl⟩

/-- After any run from reset the block has its NCH channels and the parameters it was reset with. -/
theorem execAll_resetWith_channels {c : Config} {is : List Instr} (hcfg : c.WellFormed)
    (h : execAll is (State.resetWith c) = .next s) : s.ch.length = c.nch ∧ s.cfg = c := by
  obtain ⟨hs, -⟩ := execAll_cfg_inputs h
  obtain ⟨-, ⟨hlen, -⟩, -⟩ := execAll_preserves exec_keeps_inv h (State.resetWith_inv hcfg)
  exact ⟨hlen.trans (congrArg Config.nch hs), hs⟩

/-- A run from reset whose SETDIRs are all 0 ends halted at Pattern[0]. -/
theorem execAll_resetWith_haltedAtZero {c : Config} {is : List Instr} (hcfg : c.WellFormed)
    (hdir : ∀ d, .setdir d ∈ is → d = 0b00#2) (h : execAll is (State.resetWith c) = .next s) : s.HaltedAtZero := by
  have hkeeps : ∀ i ∈ is, ∀ u v : State, exec i u = .next v →
      u.cfg = c ∧ u.HaltedAtZero → v.cfg = c ∧ v.HaltedAtZero := by
    rintro i hi u v huv ⟨hu, hhalted⟩
    obtain ⟨hv, -⟩ := exec_cfg_inputs huv
    exact ⟨hv.trans hu,
      exec_keeps_haltedAtZero huv (fun d hd => hdir d (hd ▸ hi)) (hu ▸ hcfg.patternLen_pos) hhalted⟩
  obtain ⟨-, hhalted⟩ := execAll_preserves_of_mem hkeeps h ⟨rfl, rfl, rfl⟩
  exact hhalted

/-- Settles O41: operations other than STICK and RESET leave the tempo counter and the index at 0, and while the direction
is 0 an expiry leaves the index at 0 too. -/
theorem firstStickAfterResetExpires : Obligations.FirstStickAfterResetExpires := by
  intro c hcfg
  constructor
  · intro is s hkeep h
    obtain ⟨hlen, hs⟩ := execAll_resetWith_channels hcfg h
    obtain ⟨hcount, hidx⟩ : s.ExpiresAtZero :=
      execAll_preserves_of_mem (fun i hi _ _ hstep => exec_keeps_expiresAtZero hstep (hkeep i hi)) h ⟨rfl, rfl⟩
    have hN : 0 < s.cfg.patternLen := hs ▸ hcfg.patternLen_pos
    refine ⟨s.expiry, exec_stick_expiry hcount, rfl, ?_, fun k hk => ?_⟩
    · rw [State.expiry_patternIndex, advanceIndex_cast _ _ hN, hidx, hs, Int.natCast_zero, Int.zero_add, dirValue]
    · exact hidx ▸ State.exists_expiry_channel (hlen ▸ hk)
  · intro is s hdir h
    obtain ⟨hlen, hs⟩ := execAll_resetWith_channels hcfg h
    have hhalted : s.HaltedAtZero := execAll_resetWith_haltedAtZero hcfg hdir h
    obtain ⟨hidx', -⟩ := hhalted.expiry (hs ▸ hcfg.patternLen_pos)
    obtain ⟨hidx, -⟩ := hhalted
    exact ⟨hidx, fun hcount => ⟨s.expiry, exec_stick_expiry hcount, hidx',
      fun k hk => hidx ▸ State.exists_expiry_channel (hlen ▸ hk)⟩⟩

end Sys2Proof.Machine
end

section
/-! PROOFS. Words the spec writes out (95_test_vectors.md 2.5, 2.6): a word of an operation is its encoding, and the refused
words are those of a reserved code, a reserved bit or a SETDIR of 0b10 (30_encoding.md R83). -/

namespace Sys2Proof

variable {w : EventWord}

/-! The refusals, by their reasons -/

theorem decodeOp_reservedOp {n : Nat} (hlow : 0x8 ≤ n) (hhigh : n ≤ 0xE) : decodeOp n w = .error .reservedOp := by
  interval_cases n <;> rfl

theorem decode_pwrite_reservedBits (hop : (opField w).toNat = 0x3) (hres : w.extractLsb' 25 3 ≠ 0) :
    decode w = .error .reservedBits :=
  (decode_of_op hop).trans (if_neg hres)

theorem decode_setdir_reservedDirection (hop : (opField w).toNat = 0x4) (hres : w.extractLsb' 2 26 = 0)
    (hdir : w.extractLsb' 0 2 = 0b10#2) : decode w = .error .reservedDirection :=
  (decode_of_op hop).trans ((if_pos hres).trans (if_pos hdir))

theorem decode_fconv_reservedBits (hop : (opField w).toNat = 0x7) (hres : w.extractLsb' 24 4 ≠ 0) :
    decode w = .error .reservedBits :=
  (decode_of_op hop).trans (if_neg hres)

/-- Settles O47: each accepted word is the encoding of its operation, and each refused word has one reason. -/
theorem wordsOfTheSpecDecode : Obligations.WordsOfTheSpecDecode := by
  refine ⟨decode_eq_ok_iff.2 ⟨rfl, rfl⟩, decode_eq_ok_iff.2 ⟨rfl, rfl⟩, decode_eq_ok_iff.2 ⟨rfl, rfl⟩,
    decode_eq_ok_iff.2 ⟨rfl, rfl⟩, decode_eq_ok_iff.2 ⟨rfl, rfl⟩, decode_eq_ok_iff.2 ⟨rfl, rfl⟩,
    decode_eq_ok_iff.2 ⟨rfl, rfl⟩, decode_eq_ok_iff.2 ⟨rfl, rfl⟩, decode_eq_ok_iff.2 ⟨rfl, rfl⟩,
    ?reservedOp, ?pwrite, ?setdir, ?fconv⟩
  case reservedOp => exact decodeOp_reservedOp (by decide) (by decide)
  case pwrite => exact decode_pwrite_reservedBits rfl (by decide)
  case setdir => exact decode_setdir_reservedDirection rfl rfl rfl
  case fconv => exact decode_fconv_reservedBits rfl (by decide)

end Sys2Proof
end
